-- ==== Sys2Proof/Word.lean ====
section
/-! DEFINITION. The machine's word types. Every value of this hardware is a non-negative integer of a stated width and
none is signed (R10), so registers, addresses and instruction fields are bit vectors; an index into a fixed table is a `Fin`. -/

namespace Sys2Proof

/-- 8 bits: a general register, a timer, a byte of memory, the immediate `kk` (R13, R20, R26, R49). -/
abbrev Byte := BitVec 8

/-- 16 bits: PC, I, a call-stack entry, an instruction word, the key input (R16, R17, R18, R24, R49). -/
abbrev Word := BitVec 16

/-- 12 bits: the address immediate `nnn` (R49). -/
abbrev Addr := BitVec 12

/-- 4 bits: an opcode nibble; as an operand, the row count `n` of Dxyn (R49, R50). -/
abbrev Nibble := BitVec 4

/-- The index 0x0..0xF of a general register V0..VF (R13), or a key code 0x0..0xF (R24). -/
abbrev RegIndex := Fin 16

end Sys2Proof
end

