-- ==== Sys2Proof/Config.lean ====
section
/-! DEFINITION. What the block's environment fixes and the spec leaves open, as constants with no body: nothing in Lean can
evaluate them, so a claim about a run that uses them holds for every key input and every random draw. The one parameter of
the block with a default value, FONT (R8, R41), is in Machine/Font.lean. -/

namespace Sys2Proof

/-- The key sample of a core step the environment has queued no inputs for: KEY is an input of the block that the host may
change between any two transactions (R24, R57, R116), so sample number `n` is any 16-bit value. DESIGN CHOICE (log 3, safe:
a free value). -/
opaque Config.freeKeys : Nat → Word

/-- The random byte of a core step the environment has queued no inputs for: "any value 0..255 for each draw", with no
relation between draws (R25, R86, D19). DESIGN CHOICE (log 3, safe: a free value). -/
opaque Config.freeRandom : Nat → Byte

end Sys2Proof
end

