-- ==== Sys2Proof/Machine/State.lean ====
section
/-! DEFINITION. The machine's state as plain data: everything 10_state.md gives the block, the two inputs a step samples,
and the queue of what the environment does next. -/

namespace Sys2Proof.Machine

/-- The four kinds of fault, with the information each records (R102). A fault is not a stop of the model: raising one is
the entry R104 describes, a next state whose latch FAULT holds the record, and a step over a latched fault is a next state
too (R105). So no step answers `Outcome.fault`. DESIGN CHOICE (log 4, safe). -/
inductive Fault
  /-- A memory access at an address >= 0x1000, with the lowest such address of the instruction, an integer (R32, R102).
  Raised by instruction fetch, Dxyn, Fx33, Fx55 and Fx65. Safe: the spec's own fault. -/
  | outOfRange (addr : Nat)
  /-- CALL with SP = 16 (R63). Raised by 2nnn. Safe: the spec's own fault. -/
  | stackOverflow
  /-- RET with SP = 0 (R61). Raised by 00EE. Safe: the spec's own fault. -/
  | stackUnderflow
  /-- A fetched word that encodes no instruction, with the word (R53). Raised by the step. Safe: the spec's own fault. -/
  | invalidOpcode (w : Word)
deriving DecidableEq, Repr

/-- Why an instruction has no meaning here. -/
inductive Refusal
  /-- An instruction without a meaning yet. Raised by no arm of `exec`: all 34 instructions have one. Safe. -/
  | notModelled (mnemonic : String)
deriving DecidableEq, Repr

/-- The fault record `(kind, info, at)` (R103): the kind with its information, and the address the step fetched from. -/
structure FaultRecord where
  kind : Fault
  origin : Word
deriving DecidableEq, Repr

/-- MEM (R26, R31): the bytes that differ from the reset contents, and the parameter FONT those contents are made from
(R8, R41). `cells` is in one canonical form, `Memory.wf`. -/
structure Memory where
  font : Vector Byte 80
  cells : List Host.Cell
deriving DecidableEq, Repr

/-- FB, the framebuffer: 32 rows of 64 one-bit cells; the cell of column c in row r is bit c of entry r (R23). -/
abbrev Framebuffer := Vector (BitVec 64) 32

/-- One transaction of an agent on the block (R7, R9). -/
inductive Transaction
  /-- A core step, with the level of the key input it samples and the random byte it draws (R24, R25, R56, R57). -/
  | step (keys : Word) (rnd : Byte)
  /-- One timer countdown (R112). -/
  | tick
  /-- The host's program load (R42). -/
  | load (start : Word) (bytes : List Byte)
  /-- The host's reset (R120). -/
  | reset
deriving DecidableEq, Repr

/-- What the program load answers its host (R42). -/
inductive LoadAnswer
  | ok
  | outOfRange
deriving DecidableEq, Repr

/-- The state of the block (R22, R30) and of its environment. -/
structure State where
  /-- V0..VF, 8 bits each; V[15] is VF (R13, R14). -/
  v : Vector Byte 16
  /-- I, the address register (R17). -/
  i : Word
  /-- PC (R16). -/
  pc : Word
  /-- SP, the number of live call-stack entries, 0..16 (R19; log 5). -/
  sp : Fin 17
  /-- STACK[0..15] (R18). -/
  stack : Vector Word 16
  /-- DT, the delay timer (R20). -/
  dt : Byte
  /-- ST, the sound timer (R21). -/
  st : Byte
  /-- MEM (R26). -/
  mem : Memory
  /-- FB (R23). -/
  fb : Framebuffer
  /-- WAIT: the register a pending key wait will load, if one is pending (R27). -/
  wait : Option RegIndex
  /-- KPREV: the key sample of the previous step while a wait is pending (R28). -/
  kprev : Word
  /-- FAULT, the fault latch (R29). -/
  fault : Option FaultRecord
  /-- K, the key sample of the current step (R57). An input, not state of the block (R24). -/
  keys : Word
  /-- RND, the random byte drawn for the current step. An input, not state of the block (R25). -/
  rnd : Byte
  /-- The model's own: the transactions the environment has queued, oldest first (R7; log 2). -/
  env : List Transaction
  /-- The model's own: how many samples the core has taken, the index of the free inputs (log 3). -/
  samples : Nat
deriving DecidableEq, Repr

/-- The state after reset (R30, R120). The font is R41's default (log 1); `keys`, `rnd`, `env` and `samples` are inputs and
the model's own, with the values of log 8. -/
def State.reset : State where
  v := Vector.replicate 16 0
  i := 0
  pc := 0x200
  sp := 0
  stack := Vector.replicate 16 0
  dt := 0
  st := 0
  mem := ⟨defaultFont, []⟩
  fb := Vector.replicate 32 0
  wait := none
  kprev := 0
  fault := none
  keys := 0
  rnd := 0
  env := []
  samples := 0

/-- What a transaction on the block answers. -/
abbrev Result := Host.Outcome State Fault Refusal

end Sys2Proof.Machine
end

