-- ==== Sys2Proof/Machine/Framebuffer.lean ====
section
/-! DEFINITION. The framebuffer controller (45_display.md): clear, togglePixel, isSet, and the drawing of a sprite as a
sequence of toggles. -/

namespace Sys2Proof.Machine

/-- `FB_W` (R8). -/
def fbWidth : Nat := 64

/-- `FB_H` (R8). -/
def fbHeight : Nat := 32

/-- `FB[c mod 64][r mod 32]` (R23, R93). -/
def Framebuffer.isSet (fb : Framebuffer) (c r : Nat) : Bool :=
  (fb[r % fbHeight]'(Nat.mod_lt r (by decide))).getLsbD (c % fbWidth)

/-- `clear()`: every cell unset (R93). -/
def Framebuffer.clear : Framebuffer := Vector.replicate 32 0

/-- The framebuffer with the cell of column `c`, row `r` inverted; coordinates wrap (R93). -/
def Framebuffer.invert (fb : Framebuffer) (c r : Nat) : Framebuffer :=
  fb.set (r % fbHeight)
    ((fb[r % fbHeight]'(Nat.mod_lt r (by decide))) ^^^ BitVec.twoPow 64 (c % fbWidth)) (Nat.mod_lt r (by decide))

/-- `togglePixel(c, r)`: the cell is inverted and its state before is returned (R93). -/
def Framebuffer.togglePixel (fb : Framebuffer) (c r : Nat) : Framebuffer × Bool := (fb.invert c r, fb.isSet c r)

/-- The column offsets of a sprite row, 0 leftmost (R94). -/
def spriteColumns : List Nat := [0, 1, 2, 3, 4, 5, 6, 7]

/-- The pixel at column offset `j` of a sprite row: bit 7 is the leftmost (R94). PRESUMED by the spec (D9, log 13). -/
def spriteBit (row : Byte) (j : Nat) : Bool := row.getLsbD (7 - j)

/-- One sprite row drawn at column `cx`, row `ry`, over the given column offsets; `collision` is carried along (R96). -/
def drawRow (cx ry : Nat) (row : Byte) : List Nat → Framebuffer × Bool → Framebuffer × Bool
  | [], drawn => drawn
  | j :: js, (fb, collision) =>
    if spriteBit row j then
      drawRow cx ry row js ((fb.togglePixel (cx + j) ry).1, (fb.togglePixel (cx + j) ry).2 || collision)
    else drawRow cx ry row js (fb, collision)

/-- The rows of a sprite drawn from row `ry` down (R96): the framebuffer, and whether a toggle turned a set pixel off. -/
def drawSprite (cx : Nat) : Nat → List Byte → Framebuffer × Bool → Framebuffer × Bool
  | _, [], drawn => drawn
  | ry, row :: rows, drawn => drawSprite cx (ry + 1) rows (drawRow cx ry row spriteColumns drawn)

end Sys2Proof.Machine
end

