-- ==== Sys2Proof/Syntax.lean ====
section
/-! DEFINITION. The instructions: one constructor for each of the 34 rows of spec/opcode_table.json, in the table's order
(R2, R51). Operands are decoded: a register is an index, an immediate a bit vector of its field's width (R49, R50). -/

namespace Sys2Proof

/-- The CHIP-8 instruction set of this block (R2). The comment of a constructor is its pattern of R51 and the syntax of R58. -/
inductive Instr
  /-- 00E0, `CLS` (R95). -/
  | cls
  /-- 00EE, `RET` (R61). -/
  | ret
  /-- 1nnn, `JP nnn` (R62). -/
  | jp (nnn : Addr)
  /-- 2nnn, `CALL nnn` (R63). -/
  | call (nnn : Addr)
  /-- 3xkk, `SE Vx, kk` (R67). -/
  | seImm (x : RegIndex) (kk : Byte)
  /-- 4xkk, `SNE Vx, kk` (R68). -/
  | sneImm (x : RegIndex) (kk : Byte)
  /-- 5xy0, `SE Vx, Vy` (R69). -/
  | seReg (x y : RegIndex)
  /-- 6xkk, `LD Vx, kk` (R75). -/
  | ldImm (x : RegIndex) (kk : Byte)
  /-- 7xkk, `ADD Vx, kk` (R76). -/
  | addImm (x : RegIndex) (kk : Byte)
  /-- 8xy0, `LD Vx, Vy` (R77). -/
  | ldReg (x y : RegIndex)
  /-- 8xy1, `OR Vx, Vy` (R78). -/
  | orReg (x y : RegIndex)
  /-- 8xy2, `AND Vx, Vy` (R79). -/
  | andReg (x y : RegIndex)
  /-- 8xy3, `XOR Vx, Vy` (R80). -/
  | xorReg (x y : RegIndex)
  /-- 8xy4, `ADD Vx, Vy` (R81). -/
  | addReg (x y : RegIndex)
  /-- 8xy5, `SUB Vx, Vy` (R82). -/
  | sub (x y : RegIndex)
  /-- 8xy6, `SHR Vx` (R83): y is decoded but not read (R50), kept so that no bit of the word is lost (DESIGN CHOICE, log 6). -/
  | shr (x y : RegIndex)
  /-- 8xy7, `SUBN Vx, Vy` (R84). -/
  | subn (x y : RegIndex)
  /-- 8xyE, `SHL Vx` (R85): y as for 8xy6. -/
  | shl (x y : RegIndex)
  /-- 9xy0, `SNE Vx, Vy` (R70). -/
  | sneReg (x y : RegIndex)
  /-- Annn, `LD I, nnn` (R87). -/
  | ldI (nnn : Addr)
  /-- Bnnn, `JP V0, nnn` (R64). -/
  | jpV0 (nnn : Addr)
  /-- Cxkk, `RND Vx, kk` (R86). -/
  | rnd (x : RegIndex) (kk : Byte)
  /-- Dxyn, `DRW Vx, Vy, n` (R96). -/
  | drw (x y : RegIndex) (n : Nibble)
  /-- Ex9E, `SKP Vx` (R71). -/
  | skp (x : RegIndex)
  /-- ExA1, `SKNP Vx` (R72). -/
  | sknp (x : RegIndex)
  /-- Fx07, `LD Vx, DT` (R97). -/
  | ldFromDt (x : RegIndex)
  /-- Fx0A, `LD Vx, K` (R100). -/
  | ldK (x : RegIndex)
  /-- Fx15, `LD DT, Vx` (R98). -/
  | ldDt (x : RegIndex)
  /-- Fx18, `LD ST, Vx` (R99). -/
  | ldSt (x : RegIndex)
  /-- Fx1E, `ADD I, Vx` (R88). -/
  | addI (x : RegIndex)
  /-- Fx29, `LD F, Vx` (R89). -/
  | ldF (x : RegIndex)
  /-- Fx33, `LD B, Vx` (R90). -/
  | ldB (x : RegIndex)
  /-- Fx55, `LD [I], Vx` (R91). -/
  | ldStore (x : RegIndex)
  /-- Fx65, `LD Vx, [I]` (R92). -/
  | ldLoad (x : RegIndex)
deriving DecidableEq, Repr

end Sys2Proof
end

