-- ==== Sys2Proof/WellFormed.lean ====
section
/-! DEFINITION. Well-formedness. Every term of Instr is well-formed: the bound of each operand is its type (a register index
is below 16, an immediate has its field's width, R49). What can be ill-formed is an instruction WORD: a word is well-formed
when it fits a row of spec/opcode_table.json, every fixed digit of the row's pattern equal to the word's digit (R51, D7). -/

namespace Sys2Proof

/-- A row of the opcode table: the bits the pattern fixes and their values. -/
structure Pattern where
  mask : Word
  value : Word
deriving DecidableEq, Repr

/-- The word has every fixed digit of the pattern (R51). -/
def Pattern.fits (p : Pattern) (w : Word) : Bool := w &&& p.mask == p.value

/-- The opcode table's row of an instruction. -/
def Instr.pattern (i : Instr) : Pattern :=
  match i with
  | .cls => ⟨0xFFFF, 0x00E0⟩
  | .ret => ⟨0xFFFF, 0x00EE⟩
  | .jp _ => ⟨0xF000, 0x1000⟩
  | .call _ => ⟨0xF000, 0x2000⟩
  | .seImm _ _ => ⟨0xF000, 0x3000⟩
  | .sneImm _ _ => ⟨0xF000, 0x4000⟩
  | .seReg _ _ => ⟨0xF00F, 0x5000⟩
  | .ldImm _ _ => ⟨0xF000, 0x6000⟩
  | .addImm _ _ => ⟨0xF000, 0x7000⟩
  | .ldReg _ _ => ⟨0xF00F, 0x8000⟩
  | .orReg _ _ => ⟨0xF00F, 0x8001⟩
  | .andReg _ _ => ⟨0xF00F, 0x8002⟩
  | .xorReg _ _ => ⟨0xF00F, 0x8003⟩
  | .addReg _ _ => ⟨0xF00F, 0x8004⟩
  | .sub _ _ => ⟨0xF00F, 0x8005⟩
  | .shr _ _ => ⟨0xF00F, 0x8006⟩
  | .subn _ _ => ⟨0xF00F, 0x8007⟩
  | .shl _ _ => ⟨0xF00F, 0x800E⟩
  | .sneReg _ _ => ⟨0xF00F, 0x9000⟩
  | .ldI _ => ⟨0xF000, 0xA000⟩
  | .jpV0 _ => ⟨0xF000, 0xB000⟩
  | .rnd _ _ => ⟨0xF000, 0xC000⟩
  | .drw _ _ _ => ⟨0xF000, 0xD000⟩
  | .skp _ => ⟨0xF0FF, 0xE09E⟩
  | .sknp _ => ⟨0xF0FF, 0xE0A1⟩
  | .ldFromDt _ => ⟨0xF0FF, 0xF007⟩
  | .ldK _ => ⟨0xF0FF, 0xF00A⟩
  | .ldDt _ => ⟨0xF0FF, 0xF015⟩
  | .ldSt _ => ⟨0xF0FF, 0xF018⟩
  | .addI _ => ⟨0xF0FF, 0xF01E⟩
  | .ldF _ => ⟨0xF0FF, 0xF029⟩
  | .ldB _ => ⟨0xF0FF, 0xF033⟩
  | .ldStore _ => ⟨0xF0FF, 0xF055⟩
  | .ldLoad _ => ⟨0xF0FF, 0xF065⟩

/-- The 34 rows of spec/opcode_table.json, in its order, each by its instruction with operands of zeros. -/
def opcodePatterns : List Pattern :=
  [(Instr.cls).pattern, (Instr.ret).pattern, (Instr.jp 0).pattern, (Instr.call 0).pattern, (Instr.seImm 0 0).pattern, (Instr.sneImm 0 0).pattern, (Instr.seReg 0 0).pattern, (Instr.ldImm 0 0).pattern, (Instr.addImm 0 0).pattern] ++
  [(Instr.ldReg 0 0).pattern, (Instr.orReg 0 0).pattern, (Instr.andReg 0 0).pattern, (Instr.xorReg 0 0).pattern, (Instr.addReg 0 0).pattern, (Instr.sub 0 0).pattern, (Instr.shr 0 0).pattern, (Instr.subn 0 0).pattern, (Instr.shl 0 0).pattern] ++
  [(Instr.sneReg 0 0).pattern, (Instr.ldI 0).pattern, (Instr.jpV0 0).pattern, (Instr.rnd 0 0).pattern, (Instr.drw 0 0 0).pattern, (Instr.skp 0).pattern, (Instr.sknp 0).pattern] ++
  [(Instr.ldFromDt 0).pattern, (Instr.ldK 0).pattern, (Instr.ldDt 0).pattern, (Instr.ldSt 0).pattern, (Instr.addI 0).pattern, (Instr.ldF 0).pattern, (Instr.ldB 0).pattern, (Instr.ldStore 0).pattern, (Instr.ldLoad 0).pattern]

/-- The check: the word is one of the 43954 that encode an instruction; every other word is invalid (R53). -/
def wordWellFormed (w : Word) : Bool := opcodePatterns.any fun p => p.fits w

end Sys2Proof
end

