-- ==== Sys2Proof/Decode.lean ====
section
/-! DEFINITION. The decoder, total on every word and every byte sequence, the byte order of a word, and the encoder (R34,
R49..R53). -/

namespace Sys2Proof

/-- `op = w[15:12]` (R49). -/
def opField (w : Word) : Nibble := w.extractLsb' 12 4

/-- `x = w[11:8]` (R49). -/
def xField (w : Word) : RegIndex := (w.extractLsb' 8 4).toFin

/-- `y = w[7:4]` (R49). -/
def yField (w : Word) : RegIndex := (w.extractLsb' 4 4).toFin

/-- `n = w[3:0]` (R49). -/
def nField (w : Word) : Nibble := w.extractLsb' 0 4

/-- `kk = w[7:0]` (R49). -/
def kkField (w : Word) : Byte := w.extractLsb' 0 8

/-- `nnn = w[11:0]` (R49). -/
def nnnField (w : Word) : Addr := w.extractLsb' 0 12

/-- The 8xyN family: the low digit selects the operation, matched exactly (R52, D7, log 20). -/
def decodeArith (x y : RegIndex) (n : Nibble) : Option Instr :=
  match n with
  | 0x0#4 => some (.ldReg x y)
  | 0x1#4 => some (.orReg x y)
  | 0x2#4 => some (.andReg x y)
  | 0x3#4 => some (.xorReg x y)
  | 0x4#4 => some (.addReg x y)
  | 0x5#4 => some (.sub x y)
  | 0x6#4 => some (.shr x y)
  | 0x7#4 => some (.subn x y)
  | 0xE#4 => some (.shl x y)
  | _ => none

/-- The FxKK family (R52). -/
def decodeMisc (x : RegIndex) (kk : Byte) : Option Instr :=
  match kk with
  | 0x07#8 => some (.ldFromDt x)
  | 0x0A#8 => some (.ldK x)
  | 0x15#8 => some (.ldDt x)
  | 0x18#8 => some (.ldSt x)
  | 0x1E#8 => some (.addI x)
  | 0x29#8 => some (.ldF x)
  | 0x33#8 => some (.ldB x)
  | 0x55#8 => some (.ldStore x)
  | 0x65#8 => some (.ldLoad x)
  | _ => none

/-- `decode(w)` of R52: the instruction a word encodes, `none` for INVALID. -/
def decodeWord (w : Word) : Option Instr :=
  match opField w with
  | 0x0#4 => if w = 0x00E0 then some .cls else if w = 0x00EE then some .ret else none
  | 0x1#4 => some (.jp (nnnField w))
  | 0x2#4 => some (.call (nnnField w))
  | 0x3#4 => some (.seImm (xField w) (kkField w))
  | 0x4#4 => some (.sneImm (xField w) (kkField w))
  | 0x5#4 => if nField w = 0 then some (.seReg (xField w) (yField w)) else none
  | 0x6#4 => some (.ldImm (xField w) (kkField w))
  | 0x7#4 => some (.addImm (xField w) (kkField w))
  | 0x8#4 => decodeArith (xField w) (yField w) (nField w)
  | 0x9#4 => if nField w = 0 then some (.sneReg (xField w) (yField w)) else none
  | 0xA#4 => some (.ldI (nnnField w))
  | 0xB#4 => some (.jpV0 (nnnField w))
  | 0xC#4 => some (.rnd (xField w) (kkField w))
  | 0xD#4 => some (.drw (xField w) (yField w) (nField w))
  | 0xE#4 =>
    if kkField w = 0x9E then some (.skp (xField w))
    else if kkField w = 0xA1 then some (.sknp (xField w)) else none
  | 0xF#4 => decodeMisc (xField w) (kkField w)
  | _ => none

/-- `(hi << 8) | lo`: the byte at the lower address is the high byte (R34). -/
def composeWord (hi lo : Byte) : Word := hi ++ lo

/-- The two bytes of a word in the order memory holds them, the high byte first (R34). -/
def wordBytes (w : Word) : List Byte := [w.extractLsb' 8 8, w.extractLsb' 0 8]

/-- Why a byte sequence does not begin with an instruction. -/
inductive DecodeError
  /-- Fewer than two bytes: every instruction is two bytes long (R55). -/
  | truncated
  /-- The word fits no row of the opcode table (R53). -/
  | invalidOpcode (w : Word)
deriving DecidableEq, Repr

/-- The instruction a byte sequence begins with, and the bytes after it. -/
def decode (bytes : List Byte) : Except DecodeError (Instr × List Byte) :=
  match bytes with
  | hi :: lo :: rest =>
    match decodeWord (composeWord hi lo) with
    | some i => .ok (i, rest)
    | none => .error (.invalidOpcode (composeWord hi lo))
  | _ => .error .truncated

/-- The instruction the decoder reads from the table word `w` of `nbits` bits, laid out in bytes as memory holds it. -/
def decodeTableWord (nbits w : Nat) : Option Instr :=
  match decode (wordBytes (BitVec.ofNat 16 (w % 2 ^ nbits))) with
  | .ok (i, _) => some i
  | .error _ => none

/-- A register index as the 4-bit field that holds it. -/
def regNibble (x : RegIndex) : Nibble := BitVec.ofFin x

/-- Pattern `_xkk`. -/
def encodeXKK (op : Nibble) (x : RegIndex) (kk : Byte) : Word := op ++ regNibble x ++ kk

/-- Pattern `_xyn`. -/
def encodeXYN (op : Nibble) (x y : RegIndex) (n : Nibble) : Word := op ++ regNibble x ++ regNibble y ++ n

/-- Pattern `_nnn`. -/
def encodeNNN (op : Nibble) (nnn : Addr) : Word := op ++ nnn

/-- The word of an instruction, from the patterns of R51. -/
def encode (i : Instr) : Word :=
  match i with
  | .cls => 0x00E0
  | .ret => 0x00EE
  | .jp nnn => encodeNNN 0x1 nnn
  | .call nnn => encodeNNN 0x2 nnn
  | .seImm x kk => encodeXKK 0x3 x kk
  | .sneImm x kk => encodeXKK 0x4 x kk
  | .seReg x y => encodeXYN 0x5 x y 0x0
  | .ldImm x kk => encodeXKK 0x6 x kk
  | .addImm x kk => encodeXKK 0x7 x kk
  | .ldReg x y => encodeXYN 0x8 x y 0x0
  | .orReg x y => encodeXYN 0x8 x y 0x1
  | .andReg x y => encodeXYN 0x8 x y 0x2
  | .xorReg x y => encodeXYN 0x8 x y 0x3
  | .addReg x y => encodeXYN 0x8 x y 0x4
  | .sub x y => encodeXYN 0x8 x y 0x5
  | .shr x y => encodeXYN 0x8 x y 0x6
  | .subn x y => encodeXYN 0x8 x y 0x7
  | .shl x y => encodeXYN 0x8 x y 0xE
  | .sneReg x y => encodeXYN 0x9 x y 0x0
  | .ldI nnn => encodeNNN 0xA nnn
  | .jpV0 nnn => encodeNNN 0xB nnn
  | .rnd x kk => encodeXKK 0xC x kk
  | .drw x y n => encodeXYN 0xD x y n
  | .skp x => encodeXKK 0xE x 0x9E
  | .sknp x => encodeXKK 0xE x 0xA1
  | .ldFromDt x => encodeXKK 0xF x 0x07
  | .ldK x => encodeXKK 0xF x 0x0A
  | .ldDt x => encodeXKK 0xF x 0x15
  | .ldSt x => encodeXKK 0xF x 0x18
  | .addI x => encodeXKK 0xF x 0x1E
  | .ldF x => encodeXKK 0xF x 0x29
  | .ldB x => encodeXKK 0xF x 0x33
  | .ldStore x => encodeXKK 0xF x 0x55
  | .ldLoad x => encodeXKK 0xF x 0x65

end Sys2Proof
end

