-- ==== Sys2Proof/Machine/Memory.lean ====
section
/-! DEFINITION. MEM, 4096 bytes (20_memory.md): bounds-checked byte accesses, and the multi-byte accesses as ascending
sequences of them. -/

namespace Sys2Proof.Machine

/-- `MEM_SIZE` (R8). -/
def memSize : Nat := 4096

/-- What an address nothing has written reads as: its contents at reset, FONT at 0x000..0x04F and 0x00 above (R30, R40). -/
def Memory.unlisted (m : Memory) (a : Nat) : Byte := if h : a < 80 then m.font[a] else 0

/-- The byte listed for an address. -/
def lookupCell : List Host.Cell → Nat → Option Byte
  | [], _ => none
  | (a', b) :: cells, a => if a' = a then some b else lookupCell cells a

/-- The list with every entry of `a` gone. -/
def eraseCell : List Host.Cell → Nat → List Host.Cell
  | [], _ => []
  | (a', b) :: cells, a => if a' = a then eraseCell cells a else (a', b) :: eraseCell cells a

/-- The list with `b` as `a`'s entry, in the order of the addresses. -/
def insertCell : List Host.Cell → Nat → Byte → List Host.Cell
  | [], a, b => [(a, b)]
  | (a', b') :: cells, a, b =>
    if a < a' then (a, b) :: (a', b') :: cells
    else if a = a' then (a, b) :: cells
    else (a', b') :: insertCell cells a b

/-- `MEM[a]`, for an address in range. -/
def Memory.byteAt (m : Memory) (a : Nat) : Byte := (lookupCell m.cells a).getD (m.unlisted a)

/-- `MEM[a] <- b`, for an address in range; the canonical form is kept. -/
def Memory.setByte (m : Memory) (a : Nat) (b : Byte) : Memory :=
  { m with cells := if b = m.unlisted a then eraseCell m.cells a else insertCell m.cells a b }

/-- The bytes written from `a` on, for a range already known to fit (R42). -/
def Memory.setBytes (m : Memory) (a : Nat) : List Byte → Memory
  | [] => m
  | b :: bs => (m.setByte a b).setBytes (a + 1) bs

/-- `MemRead(a, 1)`: the byte, or the address when it is out of range (R11, R32). -/
def Memory.read (m : Memory) (a : Nat) : Except Nat Byte :=
  if a < memSize then .ok (m.byteAt a) else .error a

/-- `MemWrite(a, 1, b)` (R11, R32). -/
def Memory.write (m : Memory) (a : Nat) (b : Byte) : Except Nat Memory :=
  if a < memSize then .ok (m.setByte a b) else .error a

/-- The `n` bytes from `a` on, read in ascending order, or the first address out of range (R33, R35). -/
def Memory.readRange (m : Memory) (a : Nat) : Nat → Except Nat (List Byte)
  | 0 => .ok []
  | n + 1 =>
    match m.read a with
    | .error e => .error e
    | .ok b =>
      match m.readRange (a + 1) n with
      | .error e => .error e
      | .ok bs => .ok (b :: bs)

/-- The bytes written from `a` on in ascending order, or the first address out of range, and then nothing is written: the
writes are staged (R12, R33, R35). -/
def Memory.writeRange (m : Memory) (a : Nat) : List Byte → Except Nat Memory
  | [] => .ok m
  | b :: bs =>
    match m.write a b with
    | .error e => .error e
    | .ok m' => m'.writeRange (a + 1) bs

/-- `MemRead(a, 2)`: the instruction word at `a`, big-endian (R11, R34). -/
def Memory.readWord (m : Memory) (a : Nat) : Except Nat Word :=
  match m.read a with
  | .error e => .error e
  | .ok hi =>
    match m.read (a + 1) with
    | .error e => .error e
    | .ok lo => .ok (composeWord hi lo)

/-- Addresses strictly rising, from `lo` on. -/
def cellsRise : Nat → List Host.Cell → Bool
  | _, [] => true
  | lo, (a, _) :: cells => decide (lo ≤ a) && cellsRise (a + 1) cells

/-- The canonical form: addresses strictly rising and in range, and no entry equal to what its address reads as unlisted.
Two memories of one font in this form that read alike are equal. -/
def Memory.wf (m : Memory) : Bool :=
  cellsRise 0 m.cells && m.cells.all fun c => decide (c.1 < memSize) && c.2 != m.unlisted c.1

end Sys2Proof.Machine
end

