-- ==== Sys2Proof/Machine/Ops.lean ====
section
/-! DEFINITION. The named operations over the state (the primitives of R11), and the taking of a fault. -/

namespace Sys2Proof.Machine

/-- `FLAG_REG`, the index of VF (R8). -/
def flagReg : RegIndex := 0xF

/-- `V[x]` (R11, R13). -/
def State.reg (s : State) (x : RegIndex) : Byte := s.v[x.val]

/-- `V[x] <- b`; no register is hard-wired (R11, R13). -/
def State.setReg (s : State) (x : RegIndex) (b : Byte) : State := { s with v := s.v.set x.val b x.isLt }

/-- The bytes written to consecutive registers from index `k` on, ascending (R92). -/
def storeRegs (v : Vector Byte 16) : Nat → List Byte → Vector Byte 16
  | _, [] => v
  | k, b :: bs => storeRegs (v.setIfInBounds k b) (k + 1) bs

/-- `V[0], V[1], ... <- bytes` (R92). -/
def State.setRegs (s : State) (bytes : List Byte) : State := { s with v := storeRegs s.v 0 bytes }

/-- `I <- a` (R11, R17). -/
def State.setI (s : State) (a : Word) : State := { s with i := a }

/-- `PC <- a` (R11, R16). -/
def State.setPc (s : State) (a : Word) : State := { s with pc := a }

/-- `PC <- (PC + 2) mod 2^16`: the fetch's advance, and a skip's (R16, R66, D25, log 21). -/
def State.advance (s : State) : State := s.setPc (s.pc + 2)

/-- A skip: PC advances by a further 2 when the condition holds (R66). -/
def State.skipIf (s : State) (condition : Bool) : State := if condition then s.advance else s

/-- `STACK[SP] <- ret; SP <- SP + 1`, if an entry is free (R63). -/
def State.push (s : State) (ret : Word) : Option State :=
  if h : s.sp.val < 16 then
    some { s with stack := s.stack.set s.sp.val ret h, sp := ⟨s.sp.val + 1, Nat.succ_lt_succ h⟩ }
  else none

/-- `SP <- SP - 1` and the entry `STACK[SP]`, which keeps its value, if one is live (R61, D16, log 10). -/
def State.pop (s : State) : Option (Word × State) :=
  if h : 0 < s.sp.val then
    some (s.stack[s.sp.val - 1]'(by omega), { s with sp := ⟨s.sp.val - 1, by omega⟩ })
  else none

/-- `DT <- b` (R20). -/
def State.setDt (s : State) (b : Byte) : State := { s with dt := b }

/-- `ST <- b` (R21). -/
def State.setSt (s : State) (b : Byte) : State := { s with st := b }

/-- MEM with staged writes committed (R12). -/
def State.setMem (s : State) (m : Memory) : State := { s with mem := m }

/-- FB with staged toggles committed (R12). -/
def State.setFb (s : State) (fb : Framebuffer) : State := { s with fb := fb }

/-- `WAIT <- w; KPREV <- k` (R27, R28). -/
def State.setWait (s : State) (w : Option RegIndex) (k : Word) : State := { s with wait := w, kprev := k }

/-- The inputs of one core step: the key sample and the random draw (R25, R57). -/
def State.sample (s : State) (keys : Word) (rnd : Byte) : State :=
  { s with keys := keys, rnd := rnd, samples := s.samples + 1 }

/-- FAULT takes the record `(kind, info, origin)` and nothing else changes (R103, R104). -/
def State.latch (s : State) (kind : Fault) (origin : Word) : State := { s with fault := some ⟨kind, origin⟩ }

/-- Taking a fault raised by an instruction (R104): none of its writes commits, PC keeps the fetch's advance, and FAULT takes
the record with the instruction's own address, which is PC - 2 (log 18, log 19). There is no return from a fault: the only
exit is reset (R107, `hostReset`). -/
def State.raise (s : State) (kind : Fault) : State := s.latch kind (s.pc - 2)

end Sys2Proof.Machine
end

