-- ==== Sys2Proof/Machine/Operands.lean ====
section
/-! DEFINITION. The operand forms: immediates, the register-indirect address I + k, register ranges, key codes, the glyph
address and the decimal digits of a register (30_encoding.md R50, 44_index_memory.md). -/

namespace Sys2Proof.Machine

/-- `zext_16(nnn)` (R50). -/
def zextAddr (nnn : Addr) : Word := nnn.setWidth 16

/-- The target of Bnnn: the exact sum, at most 0x10FE (R64). -/
def jumpOffset (nnn : Addr) (v0 : Byte) : Word := BitVec.ofNat 16 (nnn.toNat + v0.toNat)

/-- The effective address of byte `k` of an access through I: an unbounded integer, never reduced (R33). -/
def State.effectiveAddress (s : State) (k : Nat) : Nat := s.i.toNat + k

/-- V0..Vx (R91). -/
def State.regsThrough (s : State) (x : RegIndex) : List Byte := s.v.toList.take (x.val + 1)

/-- Whether the key of code `code` is held in the sample: a code of 16 or more has no key and reads as not held (R71, D12,
log 15). -/
def keyHeld (keys : Word) (code : Byte) : Bool := decide (code.toNat < 16) && keys.getLsbD code.toNat

/-- The keys pressed since the last sample: held now and not then (R101). -/
def newPresses (keys kprev : Word) : Word := keys &&& ~~~kprev

/-- The key codes, ascending. -/
def keyCodes : List RegIndex := [0, 1, 2, 3, 4, 5, 6, 7, 8, 9, 10, 11, 12, 13, 14, 15]

/-- `min E`, the lowest key code of a set of keys (R101, D14, log 17). -/
def lowestKey (pressed : Word) : Option RegIndex := keyCodes.find? fun k => pressed.getLsbD k.val

/-- A key code as a register's value. -/
def keyByte (k : RegIndex) : Byte := BitVec.ofNat 8 k.val

/-- `(I + zext_16(b)) mod 2^16` (R88). -/
def addIndex (i : Word) (b : Byte) : Word := BitVec.ofNat 16 (i.toNat + b.toNat)

/-- `zext_16(b) * 5`, the address of the glyph of `b`; `b` is not masked (R89). -/
def glyphAddress (b : Byte) : Word := BitVec.ofNat 16 (b.toNat * 5)

/-- The decimal digits of a byte: hundreds, tens, units, by truncating division (R90). -/
def decimalDigits (b : Byte) : List Byte :=
  [BitVec.ofNat 8 (b.toNat / 100), BitVec.ofNat 8 (b.toNat / 10 % 10), BitVec.ofNat 8 (b.toNat % 10)]

end Sys2Proof.Machine
end

