-- ==== Sys2Proof/Machine/Devices.lean ====
section
/-! DEFINITION. The timer countdown unit, the host's transactions and the output ports (60_exceptions.md,
70_reset_and_hazards.md, 00_scope.md R9). -/

namespace Sys2Proof.Machine

/-- A timer's countdown, never below zero (R112, R113). -/
def countDown (t : Byte) : Byte := if t.toNat > 0 then BitVec.ofNat 8 (t.toNat - 1) else t

/-- `tick()` (R112). -/
def tick (s : State) : State := (s.setDt (countDown s.dt)).setSt (countDown s.st)

/-- `load(start, bytes)`: all the bytes or none, and the answer to the host; only MEM changes (R42, log 22, log 23). -/
def hostLoad (start : Word) (bytes : List Byte) (s : State) : LoadAnswer × State :=
  if start.toNat + bytes.length ≤ memSize then (.ok, s.setMem (s.mem.setBytes start.toNat bytes))
  else (.outOfRange, s)

/-- `reset`: every piece of the block's state takes its reset value, MEM with the font the block was built with (R30, R120,
D20). The environment is not the block's, so `env` and `samples` stay (log 22). -/
def hostReset (s : State) : State :=
  { State.reset with mem := ⟨s.mem.font, []⟩, env := s.env, samples := s.samples }

/-- Port `fb_pixel = FB[fb_x][fb_y]`; every address of the port's width is a cell (R115, D28, log 29). -/
def fbPixel (s : State) (x : BitVec 6) (y : BitVec 5) : Bool := s.fb.isSet x.toNat y.toNat

/-- Port `fault`: the latch (R9, R29). It is also what a step answers: `ok` is `none` (R9, R103, R105). -/
def faultPort (s : State) : Option FaultRecord := s.fault

/-- Port `waiting`: a key wait is pending (R9, R27). -/
def waitingPort (s : State) : Bool := s.wait.isSome

/-- Port `sound_active = (ST != 0)` (R114, D18, log 24). -/
def soundActive (s : State) : Bool := s.st != 0

/-- The cause code of a fault; the numbers are the spec's own (R102, D6). -/
def Fault.code (f : Fault) : Nat :=
  match f with
  | .outOfRange _ => 1
  | .stackOverflow => 2
  | .stackUnderflow => 3
  | .invalidOpcode _ => 4

end Sys2Proof.Machine
end

