-- ==== Sys2Proof/Machine/Flags.lean ====
section
/-! DEFINITION. Register arithmetic, exact on unsigned integers and then reduced modulo 256 (R73), and the values VF takes
(43_alu.md, R96). -/

namespace Sys2Proof.Machine

/-- A flag as VF holds it: the value 1 or 0. -/
def flagByte (b : Bool) : Byte := if b then 1 else 0

/-- `(a + b) mod 256` (R73). -/
def addMod (a b : Byte) : Byte := BitVec.ofNat 8 (a.toNat + b.toNat)

/-- `(a - b) mod 256` (R73). -/
def subMod (a b : Byte) : Byte := BitVec.ofInt 8 ((a.toNat : Int) - (b.toNat : Int))

/-- The carry: the unclamped sum exceeds 255 (R81). -/
def carryFlag (a b : Byte) : Byte := flagByte (decide (a.toNat + b.toNat > 255))

/-- NOT borrow of `a - b`: 1 when `a >= b` (R82, R84). -/
def notBorrowFlag (a b : Byte) : Byte := flagByte (decide (a.toNat ≥ b.toNat))

/-- Bit 0, the bit a right shift shifts out (R83). -/
def lowBitFlag (a : Byte) : Byte := flagByte (a.getLsbD 0)

/-- Bit 7, the bit a left shift shifts out, as the value 0 or 1 (R85). -/
def highBitFlag (a : Byte) : Byte := flagByte (a.getLsbD 7)

/-- `a >> 1` (R83). -/
def shiftRight (a : Byte) : Byte := BitVec.ofNat 8 (a.toNat / 2)

/-- `(a << 1) mod 256` (R85). -/
def shiftLeft (a : Byte) : Byte := BitVec.ofNat 8 (a.toNat * 2)

/-- VF and then V[x]: when x = 0xF the result is the last write and the flag is lost (R74, D8, log 12). -/
def State.setFlagThenReg (s : State) (flag : Byte) (x : RegIndex) (result : Byte) : State :=
  (s.setReg flagReg flag).setReg x result

end Sys2Proof.Machine
end

