-- ==== Sys2Proof/Machine/Alu.lean ====
section
/-! DEFINITION. Register loads, arithmetic and the random byte (43_alu.md). Every source is read from the state before the
instruction (R74). -/

namespace Sys2Proof.Machine

/-- 6xkk (R75). -/
def execLdImm (x : RegIndex) (kk : Byte) (s : State) : Result := .next (s.setReg x kk)

/-- 7xkk: no flag (R76). -/
def execAddImm (x : RegIndex) (kk : Byte) (s : State) : Result := .next (s.setReg x (addMod (s.reg x) kk))

/-- 8xy0 (R77). -/
def execLdReg (x y : RegIndex) (s : State) : Result := .next (s.setReg x (s.reg y))

/-- 8xy1: VF is not written (R78). -/
def execOrReg (x y : RegIndex) (s : State) : Result := .next (s.setReg x (s.reg x ||| s.reg y))

/-- 8xy2 (R79). -/
def execAndReg (x y : RegIndex) (s : State) : Result := .next (s.setReg x (s.reg x &&& s.reg y))

/-- 8xy3 (R80). -/
def execXorReg (x y : RegIndex) (s : State) : Result := .next (s.setReg x (s.reg x ^^^ s.reg y))

/-- 8xy4 (R81). -/
def execAddReg (x y : RegIndex) (s : State) : Result :=
  .next (s.setFlagThenReg (carryFlag (s.reg x) (s.reg y)) x (addMod (s.reg x) (s.reg y)))

/-- 8xy5 (R82). -/
def execSub (x y : RegIndex) (s : State) : Result :=
  .next (s.setFlagThenReg (notBorrowFlag (s.reg x) (s.reg y)) x (subMod (s.reg x) (s.reg y)))

/-- 8xy6: the y field is not read (R83). -/
def execShr (x _y : RegIndex) (s : State) : Result :=
  .next (s.setFlagThenReg (lowBitFlag (s.reg x)) x (shiftRight (s.reg x)))

/-- 8xy7 (R84). -/
def execSubn (x y : RegIndex) (s : State) : Result :=
  .next (s.setFlagThenReg (notBorrowFlag (s.reg y) (s.reg x)) x (subMod (s.reg y) (s.reg x)))

/-- 8xyE: the y field is not read (R85). -/
def execShl (x _y : RegIndex) (s : State) : Result :=
  .next (s.setFlagThenReg (highBitFlag (s.reg x)) x (shiftLeft (s.reg x)))

/-- Cxkk: the draw of this step, masked (R86). -/
def execRnd (x : RegIndex) (kk : Byte) (s : State) : Result := .next (s.setReg x (s.rnd &&& kk))

end Sys2Proof.Machine
end

