-- ==== Sys2Proof/Machine/Control.lean ====
section
/-! DEFINITION. Control transfer and the call stack (41_control.md). On entry PC is the instruction's address plus 2 (R56). -/

namespace Sys2Proof.Machine

/-- 00EE (R61). -/
def execRet (s : State) : Result :=
  match s.pop with
  | some (target, s') => .next (s'.setPc target)
  | none => .next (s.raise .stackUnderflow)

/-- 1nnn (R62). -/
def execJp (nnn : Addr) (s : State) : Result := .next (s.setPc (zextAddr nnn))

/-- 2nnn (R63). -/
def execCall (nnn : Addr) (s : State) : Result :=
  match s.push s.pc with
  | some s' => .next (s'.setPc (zextAddr nnn))
  | none => .next (s.raise .stackOverflow)

/-- Bnnn: the register is always V0 (R64). -/
def execJpV0 (nnn : Addr) (s : State) : Result := .next (s.setPc (jumpOffset nnn (s.reg 0)))

end Sys2Proof.Machine
end

