-- ==== Sys2Proof/Machine/Display.lean ====
section
/-! DEFINITION. The display instructions (45_display.md). -/

namespace Sys2Proof.Machine

/-- 00E0 (R95). -/
def execCls (s : State) : Result := .next (s.setFb Framebuffer.clear)

/-- Dxyn: the coordinates and all the rows are read first, the toggles made, VF written last (R96). -/
def execDrw (x y : RegIndex) (n : Nibble) (s : State) : Result :=
  match s.mem.readRange (s.effectiveAddress 0) n.toNat with
  | .ok rows =>
    let drawn := drawSprite (s.reg x).toNat (s.reg y).toNat rows (s.fb, false)
    .next ((s.setFb drawn.1).setReg flagReg (flagByte drawn.2))
  | .error a => .next (s.raise (.outOfRange a))

end Sys2Proof.Machine
end

