-- ==== Sys2Proof/Machine/Index.lean ====
section
/-! DEFINITION. The address register and the memory transfers (44_index_memory.md). I is unchanged by an access (D11, log 14);
a transfer that would touch an address out of range touches nothing and raises OutOfRange with the lowest one (D30, log 19). -/

namespace Sys2Proof.Machine

/-- Annn (R87). -/
def execLdI (nnn : Addr) (s : State) : Result := .next (s.setI (zextAddr nnn))

/-- Fx1E: 16-bit wrap, no flag (R88). -/
def execAddI (x : RegIndex) (s : State) : Result := .next (s.setI (addIndex s.i (s.reg x)))

/-- Fx29 (R89). -/
def execLdF (x : RegIndex) (s : State) : Result := .next (s.setI (glyphAddress (s.reg x)))

/-- Bytes stored from I on, or the fault (R12, R104). -/
def State.storeBytes (s : State) (bytes : List Byte) : State :=
  match s.mem.writeRange (s.effectiveAddress 0) bytes with
  | .ok m => s.setMem m
  | .error a => s.raise (.outOfRange a)

/-- Fx33 (R90). -/
def execLdB (x : RegIndex) (s : State) : Result := .next (s.storeBytes (decimalDigits (s.reg x)))

/-- Fx55 (R91). -/
def execLdStore (x : RegIndex) (s : State) : Result := .next (s.storeBytes (s.regsThrough x))

/-- Fx65 (R92). -/
def execLdLoad (x : RegIndex) (s : State) : Result :=
  match s.mem.readRange (s.effectiveAddress 0) (x.val + 1) with
  | .ok bytes => .next (s.setRegs bytes)
  | .error a => .next (s.raise (.outOfRange a))

end Sys2Proof.Machine
end

