-- ==== Sys2Proof/Machine/Skip.lean ====
section
/-! DEFINITION. Conditional skips (42_skip.md). On entry PC is the instruction's address plus 2 (R56). -/

namespace Sys2Proof.Machine

/-- 3xkk (R67). -/
def execSeImm (x : RegIndex) (kk : Byte) (s : State) : Result := .next (s.skipIf (s.reg x == kk))

/-- 4xkk (R68). -/
def execSneImm (x : RegIndex) (kk : Byte) (s : State) : Result := .next (s.skipIf (s.reg x != kk))

/-- 5xy0 (R69). -/
def execSeReg (x y : RegIndex) (s : State) : Result := .next (s.skipIf (s.reg x == s.reg y))

/-- 9xy0 (R70). -/
def execSneReg (x y : RegIndex) (s : State) : Result := .next (s.skipIf (s.reg x != s.reg y))

/-- Ex9E: the level of the key in this step's sample (R71). -/
def execSkp (x : RegIndex) (s : State) : Result := .next (s.skipIf (keyHeld s.keys (s.reg x)))

/-- ExA1 (R72). -/
def execSknp (x : RegIndex) (s : State) : Result := .next (s.skipIf (!keyHeld s.keys (s.reg x)))

end Sys2Proof.Machine
end

