-- ==== Sys2Proof/Machine/TimerKey.lean ====
section
/-! DEFINITION. Timer access, the key wait's entry and its poll (46_timer_key.md). -/

namespace Sys2Proof.Machine

/-- Fx07 (R97). -/
def execLdFromDt (x : RegIndex) (s : State) : Result := .next (s.setReg x s.dt)

/-- Fx15 (R98). -/
def execLdDt (x : RegIndex) (s : State) : Result := .next (s.setDt (s.reg x))

/-- Fx18 (R99). -/
def execLdSt (x : RegIndex) (s : State) : Result := .next (s.setSt (s.reg x))

/-- Fx0A: the wait is entered, this step's sample is the reference for the first edge, and PC goes back to the instruction
(R100, D13, log 16). -/
def execLdK (x : RegIndex) (s : State) : Result := .next ((s.setWait (some x) s.keys).setPc (s.pc - 2))

/-- `keywait_poll(x, K)`, what a step does while a wait is pending (R101). -/
def keyWaitPoll (x : RegIndex) (s : State) : State :=
  match lowestKey (newPresses s.keys s.kprev) with
  | none => s.setWait s.wait s.keys
  | some k => ((s.setReg x (keyByte k)).setWait none s.kprev).advance

end Sys2Proof.Machine
end

