-- ==== Sys2Proof/Machine/Cycle.lean ====
section
/-! DEFINITION. The step cycle (30_encoding.md R56) and the transactions on the block (R7). -/

namespace Sys2Proof.Machine

/-- Decode and execute, PC already advanced (R52, R53, R56). -/
def execute (w : Word) (s : State) : Result :=
  match decodeWord w with
  | some i => exec i s
  | none => .next (s.raise (.invalidOpcode w))

/-- Fetch, advance PC, execute. A fault of the fetch comes before the advance and leaves PC (R37, R56, D3, log 18). -/
def fetchExecute (s : State) : Result :=
  match s.mem.readWord s.pc.toNat with
  | .ok w => execute w s.advance
  | .error a => .next (s.latch (.outOfRange a) s.pc)

/-- `step()`, with the inputs it samples: over a latched fault nothing changes, during a key wait it polls, otherwise it runs
one instruction (R56, R105). -/
def coreStep (keys : Word) (rnd : Byte) (s : State) : Result :=
  match s.fault with
  | some _ => .next s
  | none =>
    match s.wait with
    | some x => .next (keyWaitPoll x (s.sample keys rnd))
    | none => fetchExecute (s.sample keys rnd)

/-- One transaction of an agent (R7). -/
def perform (t : Transaction) (s : State) : Result :=
  match t with
  | .step keys rnd => coreStep keys rnd s
  | .tick => .next (tick s)
  | .load start bytes => .next (hostLoad start bytes s).2
  | .reset => .next (hostReset s)

/-- The environment's next transaction; with none queued, a core step on free inputs (log 2, log 3). -/
def nextTransaction (s : State) : Result :=
  match s.env with
  | t :: rest => perform t { s with env := rest }
  | [] => coreStep (Config.freeKeys s.samples) (Config.freeRandom s.samples) s

/-- Where `withFetchWord` puts an instruction: PC, or the load address 0x200 when no fetch at PC succeeds (R37, log 7). -/
def fetchPlace (pc : Word) : Word := if pc.toNat ≤ 0xFFE then pc else 0x200

/-- The state with an instruction word where the next step fetches it, and nothing in the way of that fetch: no queued
transaction, no pending key wait, no latched fault (log 7). -/
def placeWord (s : State) (w : Word) : State :=
  { s with
    pc := fetchPlace s.pc
    mem := s.mem.setBytes (fetchPlace s.pc).toNat (wordBytes w)
    wait := none
    fault := none
    env := [] }

end Sys2Proof.Machine
end

