-- ==== Sys2Proof/Machine/Step.lean ====
section
/-! DEFINITION. The machine's step: the next transaction on the block (R7, R56). -/

namespace Sys2Proof.Machine

/-- One step of the machine is one transaction of one agent: the first the environment has queued, or a core step. -/
def step (s : State) : Host.Outcome State Fault Refusal := nextTransaction s

/-- The state with the table word `w` stored where `step` fetches its next instruction (log 7). -/
def State.withFetchWord (s : State) (nbits w : Nat) : State := placeWord s (BitVec.ofNat 16 (w % 2 ^ nbits))

end Sys2Proof.Machine
end

