-- ==== Sys2Proof/Safety.lean ====
section
/-! DEFINITION. The terms claims are stated in: the parts of the state and what a transition leaves alone, runs of
transactions, the end of a run, and the invariant of the reachable states. -/

namespace Sys2Proof.Machine

/-- A part of the state that can be looked at on its own. -/
inductive Part
  | reg (x : RegIndex)
  | i
  | pc
  | sp
  | entry (k : Fin 16)
  | dt
  | st
  | byte (a : Nat)
  | font
  | pixel (c : Fin 64) (r : Fin 32)
  | wait
  | kprev
  | fault
  | keys
  | rnd
  | env
  | samples
deriving DecidableEq, Repr

/-- Two states hold the same in a part. -/
def Agree (p : Part) (s t : State) : Prop :=
  match p with
  | .reg x => t.reg x = s.reg x
  | .i => t.i = s.i
  | .pc => t.pc = s.pc
  | .sp => t.sp = s.sp
  | .entry k => t.stack[k.val] = s.stack[k.val]
  | .dt => t.dt = s.dt
  | .st => t.st = s.st
  | .byte a => t.mem.read a = s.mem.read a
  | .font => t.mem.font = s.mem.font
  | .pixel c r => t.fb.isSet c.val r.val = s.fb.isSet c.val r.val
  | .wait => t.wait = s.wait
  | .kprev => t.kprev = s.kprev
  | .fault => t.fault = s.fault
  | .keys => t.keys = s.keys
  | .rnd => t.rnd = s.rnd
  | .env => t.env = s.env
  | .samples => t.samples = s.samples

/-- The frame: every part of the state outside `allowed` is as before. -/
def ChangesOnly (allowed : Part → Prop) (s t : State) : Prop := ∀ p, ¬ allowed p → Agree p s t

/-- The instruction runs to a next state, and that state is as described. -/
def Completes (i : Instr) (s : State) (described : State → Prop) : Prop := ∃ t, exec i s = .next t ∧ described t

/-- The instruction takes a fault (R104): FAULT holds the kind and the instruction's address PC - 2, and nothing else changes. -/
def TakesFault (i : Instr) (s : State) (kind : Fault) : Prop :=
  Completes i s fun t => t.fault = some ⟨kind, s.pc - 2⟩ ∧ ChangesOnly (· = .fault) s t

/-- Instructions executed one after the other. -/
def execAll : List Instr → State → Result
  | [], s => .next s
  | i :: is, s =>
    match exec i s with
    | .next s' => execAll is s'
    | .fault r => .fault r
    | .refused r => .refused r

/-- Transactions performed one after the other: one interleaving of the agents (R7). -/
def performAll : List Transaction → State → Result
  | [], s => .next s
  | t :: ts, s =>
    match perform t s with
    | .next s' => performAll ts s'
    | .fault r => .fault r
    | .refused r => .refused r

/-- The word at an address is read and is `w`. -/
def State.HasWord (s : State) (a : Nat) (w : Word) : Prop :=
  ∃ hi lo, s.mem.read a = .ok hi ∧ s.mem.read (a + 1) = .ok lo ∧ w.toNat = hi.toNat * 256 + lo.toNat

/-- FAULTED, an end of a run (R123). -/
def Faulted (s : State) : Prop := s.fault ≠ none

/-- PARKED at `e`, an end of a run: the next instruction is a jump to itself (R123). -/
def Parked (e : Addr) (s : State) : Prop :=
  s.fault = none ∧ s.wait = none ∧ s.pc.toNat = e.toNat ∧ e.toNat ≤ 0xFFE ∧
    s.mem.read e.toNat = .ok (0x10 ||| BitVec.ofNat 8 (e.toNat / 256)) ∧
    s.mem.read (e.toNat + 1) = .ok (BitVec.ofNat 8 (e.toNat % 256))

/-- Every key held in `keys` is held in `before`: no key-press edge (R101). -/
def NoPress (before keys : Word) : Prop := ∀ k : Nat, keys.getLsbD k = true → before.getLsbD k = true

/-- A sequence of transactions in which no step's sample holds a key the sample before it, first `before`, did not hold. A
reset ends the wait, so it is none of them. -/
def NoPressIn : Word → List Transaction → Prop
  | _, [] => True
  | before, .step keys _ :: ts => NoPress before keys ∧ NoPressIn keys ts
  | before, .tick :: ts => NoPressIn before ts
  | before, .load _ _ :: ts => NoPressIn before ts
  | _, .reset :: _ => False

/-- No key press is ever supplied from the sample `before` on, by what is queued and by what the environment does after that,
transaction after transaction: no prefix of the two holds a press, or a reset (R101, R119). -/
def NoPressEver (before : Word) (queue : List Transaction) (later : Nat → Transaction) : Prop :=
  ∀ n, NoPressIn before (queue ++ (List.range n).map later)

/-- WAITING, an end of a run: a key wait is pending and no key press is ever supplied, by the queue or by what the environment
does after it (R123, D31, log 31). -/
def Waiting (later : Nat → Transaction) (s : State) : Prop := s.wait ≠ none ∧ NoPressEver s.kprev s.env later

/-- After `bytes` are stored from I on, the byte at `a` is `b`: one of those stored, or what memory holds where none is
stored. -/
def ByteAfterStore (s : State) (bytes : List Byte) (a : Nat) (b : Byte) : Prop :=
  (∀ k, k < bytes.length → a = s.i.toNat + k → bytes[k]? = some b) ∧
  ((∀ k, k < bytes.length → a ≠ s.i.toNat + k) → s.mem.read a = .ok b)

/-- The pixel (c, r) is one that the sprite of an `n`-row Dxyn at (Vx, Vy) sets a bit for: bit 7 - j of row k is set, the
column is Vx + j modulo 64 and the row Vy + k modulo 32 (R94, R96). -/
def SpriteCovers (s : State) (x y : RegIndex) (n : Nat) (c r : Nat) : Prop :=
  ∃ k j b, k < n ∧ j < 8 ∧ s.mem.read (s.i.toNat + k) = .ok b ∧ b.getLsbD (7 - j) = true ∧
    c = ((s.reg x).toNat + j) % 64 ∧ r = ((s.reg y).toNat + k) % 32

/-- What a latched record says of the state it is latched in: nothing has moved since the entry (R104, R105). -/
def FaultFits (f : FaultRecord) (s : State) : Prop :=
  match f.kind with
  | .outOfRange a =>
    0x1000 ≤ a ∧ a ≤ 0xFFFF ∧
      ((s.pc = f.origin ∧ 0xFFF ≤ f.origin.toNat ∧ a = max f.origin.toNat 0x1000) ∨
        (s.pc.toNat = f.origin.toNat + 2 ∧ f.origin.toNat ≤ 0xFFE))
  | .stackOverflow => s.sp.val = 16 ∧ s.pc.toNat = f.origin.toNat + 2 ∧ f.origin.toNat ≤ 0xFFE
  | .stackUnderflow => s.sp.val = 0 ∧ s.pc.toNat = f.origin.toNat + 2 ∧ f.origin.toNat ≤ 0xFFE
  | .invalidOpcode w => decodeWord w = none ∧ s.pc.toNat = f.origin.toNat + 2 ∧ f.origin.toNat ≤ 0xFFE

/-- The invariant of the reachable states: memory is in its canonical form; PC is at most 0x10FE, so it never wraps (R38);
every live call-stack entry is an address a call can push (R19, R38); a pending wait is at a fetchable instruction and no
fault is latched beside it (R100, R107); a latched record fits the state (R104). -/
structure Inv (s : State) : Prop where
  memory : s.mem.wf = true
  pcBound : s.pc.toNat ≤ 0x10FE
  entries : ∀ k : Fin 16, k.val < s.sp.val → 2 ≤ s.stack[k.val].toNat ∧ s.stack[k.val].toNat ≤ 0x1000
  waiting : s.wait ≠ none → s.pc.toNat ≤ 0xFFE ∧ s.fault = none
  latched : ∀ f, s.fault = some f → FaultFits f s

/-- The states runs of the machine reach from reset, whatever the font it was built with and whatever the environment does. -/
inductive Reachable : State → Prop
  | start (font : Vector Byte 80) (env : List Transaction) :
      Reachable { State.reset with mem := ⟨font, []⟩, env := env }
  | next (s t : State) (hs : Reachable s) (ht : step s = .next t) : Reachable t

end Sys2Proof.Machine
end

