-- ==== Sys2Proof/Certificates/Slice0/Obligations.lean ====
section
/-! DEFINITION. The statements for the provers, in the order of the spec's files. Each docstring names the rules it rests on;
where a rule marks a point as a decision D<n> of the spec, or the model chose (log <n>), it says so. -/

open Sys2Proof Sys2Proof.Machine

/-! Encoding and the step cycle (30_encoding.md) -/

/-- At least one word of every family, written out from the patterns of R51, decodes to the instruction it stands for, and
words that differ from a pattern in a fixed digit do not decode (R51, R52, R53; the family is the top digit, R49, and that a near
miss is invalid is D7, log 20). -/
def Obligations.WordsDecodeAsTheTableSays : Prop :=
  decodeWord 0x00E0 = some .cls ∧ decodeWord 0x00EE = some .ret ∧
  decodeWord 0x1234 = some (.jp 0x234) ∧ decodeWord 0x2ABC = some (.call 0xABC) ∧ decodeWord 0xBFFF = some (.jpV0 0xFFF) ∧
  decodeWord 0x3342 = some (.seImm 3 0x42) ∧ decodeWord 0x4F01 = some (.sneImm 15 0x01) ∧
  decodeWord 0x5120 = some (.seReg 1 2) ∧ decodeWord 0x9A50 = some (.sneReg 10 5) ∧
  decodeWord 0xE59E = some (.skp 5) ∧ decodeWord 0xE5A1 = some (.sknp 5) ∧
  decodeWord 0x6A7F = some (.ldImm 10 0x7F) ∧ decodeWord 0x7120 = some (.addImm 1 0x20) ∧
  decodeWord 0x8124 = some (.addReg 1 2) ∧ decodeWord 0x812E = some (.shl 1 2) ∧
  decodeWord 0xC30F = some (.rnd 3 0x0F) ∧ decodeWord 0xA300 = some (.ldI 0x300) ∧ decodeWord 0xF265 = some (.ldLoad 2) ∧
  decodeWord 0xD01F = some (.drw 0 1 15) ∧ decodeWord 0xF50A = some (.ldK 5) ∧ decodeWord 0xF318 = some (.ldSt 3) ∧
  decodeWord 0x0123 = none ∧ decodeWord 0x5121 = none ∧ decodeWord 0x8128 = none ∧ decodeWord 0x912F = none ∧
  decodeWord 0xE19F = none ∧ decodeWord 0xF100 = none ∧ decodeWord 0xFFFF = none

/-- Decoding the bytes of any instruction's encoding, the high byte first, gives the instruction back with every operand, and
leaves the bytes after it (R34, R51, R52). -/
def Obligations.DecodeOfEncodeIsTheInstruction : Prop :=
  ∀ (i : Instr) (rest : List Byte), decode (wordBytes (encode i) ++ rest) = .ok (i, rest)

/-- Where a word decodes, encoding its instruction gives the word back: no bit of a word is dropped (R51, R52; that SHR and
SHL keep the y they do not read is the model's choice, log 6). -/
def Obligations.EncodeOfDecodeIsTheWord : Prop :=
  ∀ (w : Word) (i : Instr), decodeWord w = some i → encode i = w

/-- The words that decode to nothing are exactly those R53 lists, and exactly those that fit no row of the opcode table
(that every fixed digit of a row must match is D7, log 20). -/
def Obligations.InvalidWordsAreExactlyThoseListed : Prop :=
  ∀ w : Word,
    (decodeWord w = none ↔
      (w.toNat / 4096 = 0x0 ∧ w.toNat ≠ 0x00E0 ∧ w.toNat ≠ 0x00EE) ∨
      (w.toNat / 4096 = 0x5 ∧ w.toNat % 16 ≠ 0) ∨
      (w.toNat / 4096 = 0x8 ∧ w.toNat % 16 ∈ [0x8, 0x9, 0xA, 0xB, 0xC, 0xD, 0xF]) ∨
      (w.toNat / 4096 = 0x9 ∧ w.toNat % 16 ≠ 0) ∨
      (w.toNat / 4096 = 0xE ∧ w.toNat % 256 ∉ [0x9E, 0xA1]) ∨
      (w.toNat / 4096 = 0xF ∧ w.toNat % 256 ∉ [0x07, 0x0A, 0x15, 0x18, 0x1E, 0x29, 0x33, 0x55, 0x65])) ∧
    (decodeWord w = none ↔ wordWellFormed w = false)

/-- No word fits two rows of the opcode table (R51, R54). -/
def Obligations.NoWordFitsTwoRows : Prop :=
  ∀ w : Word, (opcodePatterns.filter fun p => p.fits w).length ≤ 1

/-- A step runs the decoded instruction: with no fault latched and no key wait pending, when the two bytes at PC decode to
`i`, a step is `exec i` on the state with the inputs sampled and PC already advanced by 2; the inputs are those the
environment has queued with the step, and free values when it has queued nothing (R34, R56, R57; the queue and the free
values are the model's own, log 2, log 3). -/
def Obligations.StepRunsTheDecodedInstruction : Prop :=
  ∀ (s : State) (hi lo : Byte) (i : Instr),
    s.fault = none → s.wait = none →
    s.mem.read s.pc.toNat = .ok hi → s.mem.read (s.pc.toNat + 1) = .ok lo → decode [hi, lo] = .ok (i, []) →
    (∀ keys rnd rest, s.env = .step keys rnd :: rest →
      step s = exec i { s with
        env := rest, keys := keys, rnd := rnd, samples := s.samples + 1, pc := s.pc + 2 }) ∧
    (s.env = [] →
      step s = exec i { s with
        keys := Config.freeKeys s.samples, rnd := Config.freeRandom s.samples, samples := s.samples + 1, pc := s.pc + 2 })

/-- Every step answers a next state: nothing the block can do ends in a stop of the model (R22, R105, R110; that a fault is a
next state with the latch set is the model's form, log 4). -/
def Obligations.EveryStepAnswersANextState : Prop :=
  ∀ s : State, ∃ t, step s = .next t

/-- A run of as many steps as there are queued transactions performs them in their order: the machine shows every
interleaving of the agents' transactions (R7; the queue is the model's own, log 2). -/
def Obligations.RunPerformsTheQueuedTransactions : Prop :=
  ∀ (s : State) (ts : List Transaction), s.env = ts →
    Host.Core.run Sys2Proof.core ts.length s = performAll ts { s with env := [] }

/-! Control transfer and the call stack (41_control.md) -/

/-- 1nnn sets PC to nnn, zero-extended, and changes nothing else (R62). -/
def Obligations.JumpSetsPc : Prop :=
  ∀ (nnn : Addr) (s : State), Completes (.jp nnn) s fun t =>
    t.pc.toNat = nnn.toNat ∧ ChangesOnly (· = .pc) s t

/-- Bnnn sets PC to the exact sum of nnn and V0, and changes nothing else (R64). -/
def Obligations.JumpWithOffsetAddsV0 : Prop :=
  ∀ (nnn : Addr) (s : State), Completes (.jpV0 nnn) s fun t =>
    t.pc.toNat = nnn.toNat + (s.reg 0).toNat ∧ ChangesOnly (· = .pc) s t

/-- 2nnn with a free entry pushes PC at index SP, adds 1 to SP and jumps; with SP = 16 it takes StackOverflow and nothing
else changes (R63; that the record holds PC - 2 is D6, log 19). -/
def Obligations.CallPushesTheReturnAddressOrOverflows : Prop :=
  ∀ (nnn : Addr) (s : State),
    (∀ k : Fin 16, s.sp.val = k.val → Completes (.call nnn) s fun t =>
      t.stack[k.val] = s.pc ∧ t.sp.val = k.val + 1 ∧ t.pc.toNat = nnn.toNat ∧
      ChangesOnly (· ∈ [.pc, .sp, .entry k]) s t) ∧
    (s.sp.val = 16 → TakesFault (.call nnn) s .stackOverflow)

/-- 00EE with SP > 0 takes 1 from SP and sets PC to the entry at the new SP, which keeps its value; with SP = 0 it takes
StackUnderflow and nothing else changes (R61; the entry's value afterwards is D16, log 10, and that the record holds PC - 2 is D6, log 19). -/
def Obligations.ReturnPopsTheReturnAddressOrUnderflows : Prop :=
  ∀ s : State,
    (∀ k : Fin 16, s.sp.val = k.val + 1 → Completes .ret s fun t =>
      t.pc = s.stack[k.val] ∧ t.sp.val = k.val ∧ ChangesOnly (· ∈ [.pc, .sp]) s t) ∧
    (s.sp.val = 0 → TakesFault .ret s .stackUnderflow)

/-- A return, from any state whose SP and top entry are as the call left them, restores PC to the address after the call and
SP to its value before it (R65). -/
def Obligations.ReturnAfterCallRestoresPcAndSp : Prop :=
  ∀ (nnn : Addr) (s : State) (k : Fin 16), s.sp.val = k.val → Completes (.call nnn) s fun t =>
    ∀ u : State, u.sp = t.sp → u.stack[k.val] = t.stack[k.val] → Completes .ret u fun r =>
      r.pc = s.pc ∧ r.sp = s.sp

/-- From an empty call stack 16 nested calls succeed and the 17th takes StackOverflow (R63, source §8; that the record
holds PC - 2 is D6, log 19). -/
def Obligations.SeventeenthNestedCallOverflows : Prop :=
  ∀ (targets : List Addr) (s : State), targets.length = 16 → s.sp.val = 0 →
    ∃ t, execAll (targets.map Instr.call) s = .next t ∧ t.sp.val = 16 ∧ t.fault = s.fault ∧
      ∀ nnn : Addr, TakesFault (.call nnn) t .stackOverflow

/-! Skips (42_skip.md) -/

/-- 3xkk skips when Vx = kk and 4xkk when Vx differs from kk: PC advances by a further 2, and nothing else changes (R67, R68). -/
def Obligations.SkipsOnAnImmediate : Prop :=
  ∀ (x : RegIndex) (kk : Byte) (s : State),
    (Completes (.seImm x kk) s fun t =>
      t.pc = (if s.reg x = kk then s.pc + 2 else s.pc) ∧ ChangesOnly (· = .pc) s t) ∧
    (Completes (.sneImm x kk) s fun t =>
      t.pc = (if s.reg x ≠ kk then s.pc + 2 else s.pc) ∧ ChangesOnly (· = .pc) s t)

/-- 5xy0 skips when Vx = Vy and 9xy0 when they differ, and nothing else changes (R69, R70). -/
def Obligations.SkipsOnTwoRegisters : Prop :=
  ∀ (x y : RegIndex) (s : State),
    (Completes (.seReg x y) s fun t =>
      t.pc = (if s.reg x = s.reg y then s.pc + 2 else s.pc) ∧ ChangesOnly (· = .pc) s t) ∧
    (Completes (.sneReg x y) s fun t =>
      t.pc = (if s.reg x ≠ s.reg y then s.pc + 2 else s.pc) ∧ ChangesOnly (· = .pc) s t)

/-- Ex9E skips when the key of code Vx is held in this step's sample and ExA1 when it is not; a code of 16 or more reads as
not held (R71, R72; the last by D12, log 15). Nothing else changes. -/
def Obligations.SkipsOnAKey : Prop :=
  ∀ (x : RegIndex) (s : State),
    (Completes (.skp x) s fun t =>
      ((∃ k : Fin 16, (s.reg x).toNat = k.val ∧ s.keys.getLsbD k.val = true) → t.pc = s.pc + 2) ∧
      ((¬ ∃ k : Fin 16, (s.reg x).toNat = k.val ∧ s.keys.getLsbD k.val = true) → t.pc = s.pc) ∧
      ChangesOnly (· = .pc) s t) ∧
    (Completes (.sknp x) s fun t =>
      ((∃ k : Fin 16, (s.reg x).toNat = k.val ∧ s.keys.getLsbD k.val = true) → t.pc = s.pc) ∧
      ((¬ ∃ k : Fin 16, (s.reg x).toNat = k.val ∧ s.keys.getLsbD k.val = true) → t.pc = s.pc + 2) ∧
      ChangesOnly (· = .pc) s t)

/-! Register loads and ALU (43_alu.md) -/

/-- 6xkk loads kk into Vx; 7xkk adds kk to Vx modulo 256. No other register changes, VF among them (R75, R76). -/
def Obligations.LoadAndAddImmediate : Prop :=
  ∀ (x : RegIndex) (kk : Byte) (s : State),
    (Completes (.ldImm x kk) s fun t => t.reg x = kk ∧ ChangesOnly (· = .reg x) s t) ∧
    (Completes (.addImm x kk) s fun t =>
      (t.reg x).toNat = ((s.reg x).toNat + kk.toNat) % 256 ∧ ChangesOnly (· = .reg x) s t)

/-- 8xy0 copies Vy to Vx; 8xy1, 8xy2 and 8xy3 set each bit of Vx to the OR, AND and XOR of the bits of Vx and Vy. No other
register changes, VF among them (R77, R78, R79, R80). -/
def Obligations.CopyAndBitwiseOperations : Prop :=
  ∀ (x y : RegIndex) (s : State),
    (Completes (.ldReg x y) s fun t => t.reg x = s.reg y ∧ ChangesOnly (· = .reg x) s t) ∧
    (Completes (.orReg x y) s fun t =>
      (∀ b, (t.reg x).getLsbD b = ((s.reg x).getLsbD b || (s.reg y).getLsbD b)) ∧ ChangesOnly (· = .reg x) s t) ∧
    (Completes (.andReg x y) s fun t =>
      (∀ b, (t.reg x).getLsbD b = ((s.reg x).getLsbD b && (s.reg y).getLsbD b)) ∧ ChangesOnly (· = .reg x) s t) ∧
    (Completes (.xorReg x y) s fun t =>
      (∀ b, (t.reg x).getLsbD b = ((s.reg x).getLsbD b ^^ (s.reg y).getLsbD b)) ∧ ChangesOnly (· = .reg x) s t)

/-- 8xy4 sets Vx to the sum modulo 256 and, unless x = 0xF, VF to the carry, both from the operands before the instruction
(R81; that the result survives when x = 0xF is D8, log 12). -/
def Obligations.AddRegistersWithCarry : Prop :=
  ∀ (x y : RegIndex) (s : State), Completes (.addReg x y) s fun t =>
    (t.reg x).toNat = ((s.reg x).toNat + (s.reg y).toNat) % 256 ∧
    (x ≠ 15 → (t.reg 15).toNat = if (s.reg x).toNat + (s.reg y).toNat > 255 then 1 else 0) ∧
    ChangesOnly (· ∈ [.reg x, .reg 15]) s t

/-- 8xy5 sets Vx to Vx - Vy modulo 256 and 8xy7 to Vy - Vx modulo 256; unless x = 0xF, VF is 1 when there is no borrow and
else 0 (R82, R84; that the result survives when x = 0xF is D8, log 12). -/
def Obligations.SubtractRegistersWithNotBorrow : Prop :=
  ∀ (x y : RegIndex) (s : State),
    (Completes (.sub x y) s fun t =>
      (t.reg x).toNat = ((s.reg x).toNat + 256 - (s.reg y).toNat) % 256 ∧
      (x ≠ 15 → (t.reg 15).toNat = if (s.reg x).toNat ≥ (s.reg y).toNat then 1 else 0) ∧
      ChangesOnly (· ∈ [.reg x, .reg 15]) s t) ∧
    (Completes (.subn x y) s fun t =>
      (t.reg x).toNat = ((s.reg y).toNat + 256 - (s.reg x).toNat) % 256 ∧
      (x ≠ 15 → (t.reg 15).toNat = if (s.reg y).toNat ≥ (s.reg x).toNat then 1 else 0) ∧
      ChangesOnly (· ∈ [.reg x, .reg 15]) s t)

/-- 8xy6 and 8xyE shift Vx by one, right and left; unless x = 0xF, VF is the bit shifted out, 0 or 1. The y field has no
effect (R50, R83, R85; that the result survives when x = 0xF is D8, log 12). -/
def Obligations.ShiftsPutTheBitShiftedOutInVf : Prop :=
  ∀ (x y : RegIndex) (s : State),
    (Completes (.shr x y) s fun t =>
      (∀ b, b < 8 → (t.reg x).getLsbD b = (s.reg x).getLsbD (b + 1)) ∧
      (x ≠ 15 → (t.reg 15).toNat = if (s.reg x).getLsbD 0 then 1 else 0) ∧
      ChangesOnly (· ∈ [.reg x, .reg 15]) s t) ∧
    (Completes (.shl x y) s fun t =>
      (t.reg x).getLsbD 0 = false ∧ (∀ b, b < 7 → (t.reg x).getLsbD (b + 1) = (s.reg x).getLsbD b) ∧
      (x ≠ 15 → (t.reg 15).toNat = if (s.reg x).getLsbD 7 then 1 else 0) ∧
      ChangesOnly (· ∈ [.reg x, .reg 15]) s t) ∧
    (∀ y' : RegIndex, exec (.shr x y) s = exec (.shr x y') s ∧ exec (.shl x y) s = exec (.shl x y') s)

/-- Cxkk sets Vx to the random byte of the step, masked by kk: whatever byte was drawn, a bit of Vx is set exactly when it is
set in both (R86; the draw is an input, D19, log 3). -/
def Obligations.RandomByteIsMasked : Prop :=
  ∀ (x : RegIndex) (kk : Byte) (s : State), Completes (.rnd x kk) s fun t =>
    (∀ b, (t.reg x).getLsbD b = (s.rnd.getLsbD b && kk.getLsbD b)) ∧ ChangesOnly (· = .reg x) s t

/-- VF changes only as the flag of 8xy4, 8xy5, 8xy6, 8xy7, 8xyE and Dxyn, or as the named destination of an instruction that
loads a register (R14, R15). -/
def Obligations.VfIsWrittenOnlyAsFlagOrDestination : Prop :=
  ∀ (i : Instr) (s t : State), exec i s = .next t → t.reg 15 ≠ s.reg 15 →
    (∃ x y, i = .addReg x y ∨ i = .sub x y ∨ i = .shr x y ∨ i = .subn x y ∨ i = .shl x y) ∨ (∃ x y n, i = .drw x y n) ∨
    (∃ kk, i = .ldImm 15 kk ∨ i = .addImm 15 kk ∨ i = .rnd 15 kk) ∨
    (∃ y, i = .ldReg 15 y ∨ i = .orReg 15 y ∨ i = .andReg 15 y ∨ i = .xorReg 15 y) ∨
    i = .ldFromDt 15 ∨ i = .ldLoad 15

/-! Address register and memory transfers (44_index_memory.md, 20_memory.md) -/

/-- Annn loads nnn into I, Fx1E adds Vx to I modulo 2^16, Fx29 sets I to 5 times Vx, unmasked. Nothing else changes, VF among
it (R87, R88, R89). -/
def Obligations.AddressRegisterInstructions : Prop :=
  (∀ (nnn : Addr) (s : State), Completes (.ldI nnn) s fun t =>
    t.i.toNat = nnn.toNat ∧ ChangesOnly (· = .i) s t) ∧
  (∀ (x : RegIndex) (s : State),
    (Completes (.addI x) s fun t =>
      t.i.toNat = (s.i.toNat + (s.reg x).toNat) % 65536 ∧ ChangesOnly (· = .i) s t) ∧
    (Completes (.ldF x) s fun t => t.i.toNat = (s.reg x).toNat * 5 ∧ ChangesOnly (· = .i) s t))

/-- Fx33, with I + 2 in range, stores three digits at I, I + 1, I + 2, each at most 9, hundreds first, that are the decimal
expansion of Vx, and changes nothing else (R90). -/
def Obligations.DecimalDigitsAreStored : Prop :=
  ∀ (x : RegIndex) (s : State), s.i.toNat + 2 < 4096 → Completes (.ldB x) s fun t =>
    (∃ h d u : Byte, t.mem.read s.i.toNat = .ok h ∧ t.mem.read (s.i.toNat + 1) = .ok d ∧
      t.mem.read (s.i.toNat + 2) = .ok u ∧ h.toNat ≤ 9 ∧ d.toNat ≤ 9 ∧ u.toNat ≤ 9 ∧
      (s.reg x).toNat = 100 * h.toNat + 10 * d.toNat + u.toNat) ∧
    ChangesOnly (∃ k, k < 3 ∧ · = .byte (s.effectiveAddress k)) s t

/-- Fx55, with I + x in range, stores V0..Vx at I..I + x and changes nothing else (R91; that I stays is D11, log 14). -/
def Obligations.RegistersAreStored : Prop :=
  ∀ (x : RegIndex) (s : State), s.i.toNat + x.val < 4096 → Completes (.ldStore x) s fun t =>
    (∀ k : RegIndex, k ≤ x → t.mem.read (s.effectiveAddress k.val) = .ok (s.reg k)) ∧
    ChangesOnly (∃ k : RegIndex, k ≤ x ∧ · = .byte (s.effectiveAddress k.val)) s t

/-- Fx65, with I + x in range, loads V0..Vx from I..I + x and changes nothing else (R92; that I stays is D11, log 14). -/
def Obligations.RegistersAreLoaded : Prop :=
  ∀ (x : RegIndex) (s : State), s.i.toNat + x.val < 4096 → Completes (.ldLoad x) s fun t =>
    (∀ k : RegIndex, k ≤ x → s.mem.read (s.i.toNat + k.val) = .ok (t.reg k)) ∧
    ChangesOnly (∃ k : RegIndex, k ≤ x ∧ · = .reg k) s t

/-- Dxyn, Fx33, Fx55 and Fx65, when a byte they would access is out of range, take OutOfRange with the lowest such address,
and nothing else changes: no byte, register or pixel is written (R32, R33, R90, R91, R92, R96; the address reported is D30
and PC is D4, log 18, log 19). -/
def Obligations.TransfersOutOfRangeTakeTheFault : Prop :=
  ∀ (s : State) (x y : RegIndex) (n : Nibble),
    (n ≠ 0 → s.i.toNat + n.toNat > 4096 → TakesFault (.drw x y n) s (.outOfRange (max s.i.toNat 4096))) ∧
    (s.i.toNat + 3 > 4096 → TakesFault (.ldB x) s (.outOfRange (max s.i.toNat 4096))) ∧
    (s.i.toNat + x.val + 1 > 4096 → TakesFault (.ldStore x) s (.outOfRange (max s.i.toNat 4096))) ∧
    (s.i.toNat + x.val + 1 > 4096 → TakesFault (.ldLoad x) s (.outOfRange (max s.i.toNat 4096)))

/-- Fx65 after Fx55 at the same I loads back what was stored, whatever the registers hold in between (R91, R92). -/
def Obligations.LoadAfterStoreRestoresTheRegisters : Prop :=
  ∀ (x : RegIndex) (s : State), s.i.toNat + x.val < 4096 → Completes (.ldStore x) s fun t =>
    ∀ u : State, u.mem = t.mem → u.i = s.i → Completes (.ldLoad x) u fun w =>
      ∀ k : RegIndex, k ≤ x → w.reg k = s.reg k

/-- A store is seen by the next fetch, whatever part of the next instruction it stores over: after Fx55, which stores V0..Vx, or
Fx33, which stores the decimal digits of Vx, the next step runs the instruction of the two bytes at PC as the store leaves
them, both stored, one of them, or none (R47, R124; that I stays is D11, log 14). -/
def Obligations.StoredInstructionIsFetchedNext : Prop :=
  ∀ (s : State) (bytes : List Byte) (hi lo : Byte) (keys : Word) (rnd : Byte) (i : Instr),
    s.i.toNat + bytes.length ≤ 4096 → s.fault = none → s.wait = none →
    ByteAfterStore s bytes s.pc.toNat hi → ByteAfterStore s bytes (s.pc.toNat + 1) lo → decode [hi, lo] = .ok (i, []) →
    (∀ x : RegIndex, bytes.length = x.val + 1 → (∀ k : RegIndex, k ≤ x → bytes[k.val]? = some (s.reg k)) →
      Completes (.ldStore x) s fun t =>
        coreStep keys rnd t = exec i { t with keys := keys, rnd := rnd, samples := t.samples + 1, pc := t.pc + 2 }) ∧
    (∀ (x : RegIndex) (h d u : Byte), bytes = [h, d, u] → h.toNat ≤ 9 → d.toNat ≤ 9 → u.toNat ≤ 9 →
      (s.reg x).toNat = 100 * h.toNat + 10 * d.toNat + u.toNat →
      Completes (.ldB x) s fun t =>
        coreStep keys rnd t = exec i { t with keys := keys, rnd := rnd, samples := t.samples + 1, pc := t.pc + 2 })

/-- Two memories of one font in the canonical form that read alike at every address are equal, and every step keeps the
canonical form (R31, R39; the form is the model's own). -/
def Obligations.MemoryIsDeterminedByItsReads : Prop :=
  (∀ m m' : Memory, m.wf = true → m'.wf = true → m.font = m'.font → (∀ a, m.read a = m'.read a) → m = m') ∧
  (∀ s t : State, s.mem.wf = true → step s = .next t → t.mem.wf = true ∧ t.mem.font = s.mem.font)

/-- The program load writes every byte of an image that fits and no other, or answers OutOfRange and writes nothing; nothing
but MEM changes (R42; the last by D21, log 22, and that the answer is `hostLoad`'s first component is the model's choice,
log 23). -/
def Obligations.LoadWritesAllOrNothing : Prop :=
  ∀ (start : Word) (bytes : List Byte) (s : State),
    (start.toNat + bytes.length ≤ 4096 →
      (hostLoad start bytes s).1 = .ok ∧
      (∀ j : Nat, ∀ h : j < bytes.length, (hostLoad start bytes s).2.mem.read (start.toNat + j) = .ok bytes[j]) ∧
      ChangesOnly (∃ j, j < bytes.length ∧ · = .byte (start.toNat + j)) s (hostLoad start bytes s).2) ∧
    (start.toNat + bytes.length > 4096 → hostLoad start bytes s = (.outOfRange, s))

/-! Display (45_display.md) -/

/-- 00E0 clears every cell of the framebuffer and changes nothing else, VF among it (R95). -/
def Obligations.ClearUnsetsEveryPixel : Prop :=
  ∀ s : State, Completes .cls s fun t =>
    (∀ (c : Fin 64) (r : Fin 32), t.fb.isSet c.val r.val = false) ∧
    ChangesOnly (∃ c r, · = .pixel c r) s t

/-- Dxyn, with its rows in range, inverts exactly the pixels its sprite sets a bit for, with the coordinates wrapped, sets VF to
1 when one of them was set before and else to 0, and changes nothing else (R94, R96; the bit order is D9, log 13). -/
def Obligations.DrawInvertsTheSpritesPixels : Prop :=
  ∀ (x y : RegIndex) (n : Nibble) (s : State), n = 0 ∨ s.i.toNat + n.toNat ≤ 4096 →
    Completes (.drw x y n) s fun t =>
      (∀ (c : Fin 64) (r : Fin 32),
        (SpriteCovers s x y n.toNat c.val r.val → t.fb.isSet c.val r.val = !s.fb.isSet c.val r.val) ∧
        (¬ SpriteCovers s x y n.toNat c.val r.val → t.fb.isSet c.val r.val = s.fb.isSet c.val r.val)) ∧
      (t.reg 15 = 0 ∨ t.reg 15 = 1) ∧
      (t.reg 15 = 1 ↔
        ∃ (c : Fin 64) (r : Fin 32), SpriteCovers s x y n.toNat c.val r.val ∧ s.fb.isSet c.val r.val = true) ∧
      ChangesOnly (fun p => p = .reg 15 ∨ ∃ c r, p = .pixel c r) s t

/-- Drawing the same sprite twice at the same place restores every pixel, and the second draw sets VF to 1 exactly when a pixel
the sprite covers was unset before the first: so whenever the sprite has a set bit and was drawn where nothing was set (R96,
source §8; over pixels that were all set the pseudocode of R96 gives VF = 0, log 28; which pixels the sprite covers is by the
bit order of D9, log 13). A coordinate in VF would not be the same place the second time. -/
def Obligations.DrawingTwiceRestoresThePixels : Prop :=
  ∀ (x y : RegIndex) (n : Nibble) (s : State), x ≠ 15 → y ≠ 15 → n = 0 ∨ s.i.toNat + n.toNat ≤ 4096 →
    Completes (.drw x y n) s fun t => Completes (.drw x y n) t fun u =>
      (∀ (c : Fin 64) (r : Fin 32), u.fb.isSet c.val r.val = s.fb.isSet c.val r.val) ∧
      (u.reg 15 = 1 ↔
        ∃ (c : Fin 64) (r : Fin 32), SpriteCovers s x y n.toNat c.val r.val ∧ s.fb.isSet c.val r.val = false) ∧
      ((∃ k b, k < n.toNat ∧ s.mem.read (s.i.toNat + k) = .ok b ∧ b ≠ 0) →
        (∀ (c : Fin 64) (r : Fin 32), s.fb.isSet c.val r.val = false) → u.reg 15 = 1)

/-! Timers and keys (46_timer_key.md, 60_exceptions.md) -/

/-- Fx07 reads DT into Vx and Fx15 sets DT to Vx; nothing else changes (R97, R98). -/
def Obligations.DelayTimerIsReadAndSet : Prop :=
  ∀ (x : RegIndex) (s : State),
    (Completes (.ldFromDt x) s fun t => t.reg x = s.dt ∧ ChangesOnly (· = .reg x) s t) ∧
    (Completes (.ldDt x) s fun t => t.dt = s.reg x ∧ ChangesOnly (· = .dt) s t)

/-- Fx18 sets ST to Vx, the sound output follows, and nothing else changes (R99; the output is D18, log 24). -/
def Obligations.SoundTimerIsSet : Prop :=
  ∀ (x : RegIndex) (s : State), Completes (.ldSt x) s fun t =>
    t.st = s.reg x ∧ (soundActive t = true ↔ (s.reg x).toNat ≠ 0) ∧ ChangesOnly (· = .st) s t

/-- A tick takes 1 from each timer that is not 0, and changes nothing else (R112). -/
def Obligations.TickCountsBothTimersDown : Prop :=
  ∀ s : State, ∃ t, perform .tick s = .next t ∧
    (s.dt.toNat > 0 → t.dt.toNat = s.dt.toNat - 1) ∧ (s.dt.toNat = 0 → t.dt.toNat = 0) ∧
    (s.st.toNat > 0 → t.st.toNat = s.st.toNat - 1) ∧ (s.st.toNat = 0 → t.st.toNat = 0) ∧
    ChangesOnly (· ∈ [.dt, .st]) s t

/-- After any number of ticks a timer that held v holds max(0, v - ticks) (R113, R125). -/
def Obligations.TicksNeverPassZero : Prop :=
  ∀ (n : Nat) (s : State), ∃ t, performAll (List.replicate n .tick) s = .next t ∧
    t.dt.toNat = s.dt.toNat - n ∧ t.st.toNat = s.st.toNat - n ∧ ChangesOnly (· ∈ [.dt, .st]) s t

/-- Fx0A enters the key wait on x with this step's sample as the reference, and puts PC back on the instruction; nothing else
changes, Vx among it (R100, by D13, log 16). -/
def Obligations.KeyWaitIsEntered : Prop :=
  ∀ (x : RegIndex) (s : State), Completes (.ldK x) s fun t =>
    t.wait = some x ∧ t.kprev = s.keys ∧ t.pc = s.pc - 2 ∧ ChangesOnly (· ∈ [.wait, .kprev, .pc]) s t

/-- A step while a key wait is pending fetches nothing. Without a key held now that was not held at the previous sample only
KPREV changes; otherwise the lowest such key goes to Vx, the wait ends and PC advances by 2 (R101, by D13, D14 and D27,
log 16, log 17). The step's own inputs, K, RND and their count, are recorded. -/
def Obligations.KeyWaitPollTakesTheLowestNewPress : Prop :=
  ∀ (x : RegIndex) (s : State) (keys : Word) (rnd : Byte), s.fault = none → s.wait = some x →
    (NoPress s.kprev keys → ∃ t, coreStep keys rnd s = .next t ∧ t.kprev = keys ∧
      ChangesOnly (· ∈ [.kprev, .keys, .rnd, .samples]) s t) ∧
    (∀ k : Fin 16, keys.getLsbD k.val = true → s.kprev.getLsbD k.val = false →
      (∀ l : Fin 16, l < k → keys.getLsbD l.val = true → s.kprev.getLsbD l.val = true) →
      ∃ t, coreStep keys rnd s = .next t ∧ (t.reg x).toNat = k.val ∧ t.wait = none ∧ t.pc = s.pc + 2 ∧
        ChangesOnly (· ∈ [.reg x, .wait, .pc, .keys, .rnd, .samples]) s t)

/-- A key wait lasts as long as no key press is supplied, however many steps, ticks and loads pass: the wait, PC and every
register stay (R101, R119, U8; that a held key is no press and that keys are sampled once a step is D13 and D27, log 16). -/
def Obligations.KeyWaitLastsWithoutAPress : Prop :=
  ∀ (ts : List Transaction) (s : State) (x : RegIndex),
    s.fault = none → s.wait = some x → NoPressIn s.kprev ts →
    ∃ t, performAll ts s = .next t ∧ t.fault = none ∧ t.wait = some x ∧ t.pc = s.pc ∧ ∀ r, t.reg r = s.reg r

/-! Faults, modes and who writes what (60_exceptions.md, 10_state.md) -/

/-- A step whose fetch is out of range takes OutOfRange with the lower of the two addresses that is out of range, with PC left
at the fetch address; nothing else changes but the step's recorded inputs (R37, R104; PC by D3 and the address by D30,
log 18, log 19). -/
def Obligations.FetchOutOfRangeTakesTheFault : Prop :=
  ∀ (s : State) (keys : Word) (rnd : Byte), s.fault = none → s.wait = none → s.pc.toNat ≥ 0xFFF →
    ∃ t, coreStep keys rnd s = .next t ∧
      t.fault = some ⟨.outOfRange (if s.pc.toNat = 0xFFF then 0x1000 else s.pc.toNat), s.pc⟩ ∧
      ChangesOnly (· ∈ [.fault, .keys, .rnd, .samples]) s t

/-- A step on a word that encodes no instruction takes InvalidOpcode with the word, PC advanced by 2; nothing else changes but
the step's recorded inputs (R53, R102, R104; the recorded address is D6, log 19). -/
def Obligations.InvalidWordTakesTheFault : Prop :=
  ∀ (s : State) (keys : Word) (rnd : Byte) (w : Word), s.fault = none → s.wait = none →
    s.HasWord s.pc.toNat w → decodeWord w = none →
    ∃ t, coreStep keys rnd s = .next t ∧ t.fault = some ⟨.invalidOpcode w, s.pc⟩ ∧ t.pc = s.pc + 2 ∧
      ChangesOnly (· ∈ [.fault, .pc, .keys, .rnd, .samples]) s t

/-- An instruction that takes a fault commits none of its writes: FAULT takes a record with the instruction's address and
nothing else changes (R12, R104; PC by D4 and the recorded address by D6, log 18, log 19). -/
def Obligations.FaultingInstructionCommitsNothing : Prop :=
  ∀ (i : Instr) (s t : State), s.fault = none → exec i s = .next t → t.fault ≠ none →
    ∃ kind, t.fault = some ⟨kind, s.pc - 2⟩ ∧ ChangesOnly (· = .fault) s t

/-- Each instruction has at most one kind of fault: 2nnn StackOverflow, 00EE StackUnderflow, Dxyn, Fx33, Fx55 and Fx65
OutOfRange, with an address of 0x1000 or more; no other instruction faults (R102, R106). -/
def Obligations.EachInstructionHasItsOwnFault : Prop :=
  ∀ (i : Instr) (s t : State) (f : FaultRecord), s.fault = none → exec i s = .next t → t.fault = some f →
    (f.kind = .stackOverflow ∧ ∃ nnn, i = .call nnn) ∨ (f.kind = .stackUnderflow ∧ i = .ret) ∨
    (∃ a, f.kind = .outOfRange a ∧ a ≥ 0x1000 ∧
      ((∃ x y n, i = .drw x y n) ∨ ∃ x, i = .ldB x ∨ i = .ldStore x ∨ i = .ldLoad x))

/-- A latched fault is terminal: a step changes nothing, and no sequence of steps, ticks and loads clears it or moves PC, SP, I,
the registers or the framebuffer (R105, R107, by D5, log 11). -/
def Obligations.LatchedFaultIsTerminal : Prop :=
  ∀ (s : State) (f : FaultRecord), s.fault = some f →
    (∀ keys rnd, perform (.step keys rnd) s = .next s) ∧
    (∀ ts : List Transaction, .reset ∉ ts → ∃ t, performAll ts s = .next t ∧
      ChangesOnly (fun p => p = .dt ∨ p = .st ∨ ∃ a, p = .byte a) s t)

/-- I is written only by Annn, Fx1E and Fx29; SP only by 2nnn and 00EE; a call-stack entry only by 2nnn (R17, R18; that
Fx55 and Fx65 do not write I is D11, log 14, and that 00EE leaves the entry it reads is D16, log 10). -/
def Obligations.WritersOfIAndTheCallStack : Prop :=
  ∀ (i : Instr) (s t : State), exec i s = .next t →
    (t.i ≠ s.i → (∃ nnn, i = .ldI nnn) ∨ ∃ x, i = .addI x ∨ i = .ldF x) ∧
    (t.sp ≠ s.sp → i = .ret ∨ ∃ nnn, i = .call nnn) ∧
    (t.stack ≠ s.stack → ∃ nnn, i = .call nnn)

/-- Memory is written only by Fx33 and Fx55, the framebuffer only by 00E0 and Dxyn, DT only by Fx15, ST only by Fx18, and the
key wait is entered only by Fx0A (R20, R21, R23, R27, R31). -/
def Obligations.WritersOfMemoryScreenTimersAndWait : Prop :=
  ∀ (i : Instr) (s t : State), exec i s = .next t →
    (t.mem ≠ s.mem → ∃ x, i = .ldB x ∨ i = .ldStore x) ∧
    (t.fb ≠ s.fb → i = .cls ∨ ∃ x y n, i = .drw x y n) ∧
    (t.dt ≠ s.dt → ∃ x, i = .ldDt x) ∧ (t.st ≠ s.st → ∃ x, i = .ldSt x) ∧
    (t.wait ≠ s.wait → ∃ x, i = .ldK x)

/-- The key sample is read by no instruction but Ex9E, ExA1 and Fx0A, and the random byte by none but Cxkk: with another
value of the input, every other instruction ends in the same state but for that input (R9, R24, R25, R108). -/
def Obligations.InputsAreReadOnlyByTheirInstructions : Prop :=
  ∀ (i : Instr) (s t : State), exec i s = .next t →
    (∀ keys : Word, (∀ x, i ≠ .skp x ∧ i ≠ .sknp x ∧ i ≠ .ldK x) →
      exec i { s with keys := keys } = .next { t with keys := keys }) ∧
    (∀ rnd : Byte, (∀ x kk, i ≠ .rnd x kk) → exec i { s with rnd := rnd } = .next { t with rnd := rnd })

/-! Reset, end of a run, and the invariant (70_reset_and_hazards.md) -/

/-- What reset leaves (R30, R120): registers, I, SP and the timers 0, PC 0x200, no wait, no fault, memory 0 above the font;
the framebuffer clear by D15 (log 9), STACK and KPREV 0 by D16 and D17 (log 10). A reset of any state leaves that, with the
font the block was built with (D10, D20, log 22) at 0x000..0x04F. The last clause also gives the inputs K and RND the value 0, which is the model's
choice, log 8. -/
def Obligations.ResetGivesEveryPieceItsValue : Prop :=
  ∀ s : State, ∃ t, perform .reset s = .next t ∧
    (∀ r, t.reg r = 0) ∧ t.i = 0 ∧ t.pc = 0x200 ∧ t.sp = 0 ∧ (∀ k : Fin 16, t.stack[k.val] = 0) ∧ t.dt = 0 ∧ t.st = 0 ∧
    t.wait = none ∧ t.kprev = 0 ∧ t.fault = none ∧ (∀ (c : Fin 64) (r : Fin 32), t.fb.isSet c.val r.val = false) ∧
    t.mem.font = s.mem.font ∧ (∀ a : Fin 80, t.mem.read a.val = .ok s.mem.font[a.val]) ∧
    (∀ a, 0x050 ≤ a → a < 4096 → t.mem.read a = .ok 0) ∧
    (s.mem.font = State.reset.mem.font → t = { State.reset with env := s.env, samples := s.samples })

/-- Parked at a jump to itself, the block stays there through every step and tick, and only the timers and the recorded
inputs ever change (R123; the idiom as an end of a run is D31, log 31). -/
def Obligations.ParkedStaysParked : Prop :=
  ∀ (e : Addr) (ts : List Transaction) (s : State), Parked e s →
    (∀ t ∈ ts, t = .tick ∨ ∃ keys rnd, t = .step keys rnd) →
    ∃ t, performAll ts s = .next t ∧ Parked e t ∧ ChangesOnly (· ∈ [.dt, .st, .keys, .rnd, .samples]) s t

/-- The invariant holds at reset, and in every state that differs from it in the font and the environment's queue only. -/
def Obligations.ResetMeetsTheInvariant : Prop :=
  Inv State.reset ∧ ∀ (font : Vector Byte 80) (env : List Transaction),
    Inv { State.reset with mem := ⟨font, []⟩, env := env }

/-- Every step, of whichever agent, keeps the invariant: memory canonical, PC never past 0x10FE (R38), live call-stack entries
pushed addresses (R19), PC on the instruction during a wait (R100, by D13, log 16), no fault beside a wait (R107), a latched
record true of the state (R104; PC by D3 and D4, log 18, what the record holds by D6 and D30, log 19). -/
def Obligations.StepKeepsTheInvariant : Prop :=
  ∀ s t : State, Inv s → step s = .next t → Inv t

/-- In every reachable state PC is at most 0x10FE, so adding 2 to it never wraps; a live call-stack entry is at most 0x1000;
and no key wait is pending beside a latched fault (R19, R38, R107, D25). -/
def Obligations.ReachablePcNeverWraps : Prop :=
  ∀ s : State, Reachable s →
    s.pc.toNat ≤ 0x10FE ∧ (s.pc + 2).toNat = s.pc.toNat + 2 ∧
    (∀ k : Fin 16, k.val < s.sp.val → s.stack[k.val].toNat ≤ 0x1000) ∧ (s.wait = none ∨ s.fault = none)

/-- A run that is WAITING never ends: at every point of a run through what is queued and any part of what the environment does
after it, the wait is pending, no fault is latched, the rest of the environment still supplies no press, and nothing has
changed but KPREV, the timers, memory (by the host's loads) and the inputs (R101, R119, R123; the wait's mechanism is D13 and
D27, log 16, the idiom is D31, log 31, and the queue is the model's own, log 2). -/
def Obligations.WaitingNeverEnds : Prop :=
  ∀ (later : Nat → Transaction) (s : State), s.fault = none → Waiting later s →
    ∀ n m : Nat, m ≤ s.env.length + n →
      ∃ t, Host.Core.run Sys2Proof.core m { s with env := s.env ++ (List.range n).map later } = .next t ∧
        t.fault = none ∧ t.wait = s.wait ∧ t.env = (s.env ++ (List.range n).map later).drop m ∧
        Waiting (fun j => later (n + j)) t ∧
        ChangesOnly (fun p => p ∈ [.kprev, .dt, .st, .keys, .rnd, .env, .samples] ∨ ∃ a, p = .byte a) s t
end

