-- ==== Sys2Proof/Laws/Decode.lean ====
section
/-! SUPPORT. The fields of a word the encoder builds, and a word from its own fields. -/

namespace Sys2Proof

/-! A word of pattern `_xkk` (R49). -/

theorem encodeXKK_toNat (op : Nibble) (x : RegIndex) (kk : Byte) :
    (encodeXKK op x kk).toNat = op.toNat * 4096 + x.val * 256 + kk.toNat := by
  have hx := x.isLt; have ho := op.isLt; have hk := kk.isLt
  simp only [encodeXKK, regNibble, BitVec.toNat_append, BitVec.toNat_ofFin]
  rw [← Nat.shiftLeft_add_eq_or_of_lt hk, ← Nat.shiftLeft_add_eq_or_of_lt (show x.val < 2 ^ 4 from hx)]
  simp only [Nat.shiftLeft_eq]; omega

/-! A word of pattern `_xyn` (R49). -/

theorem encodeXYN_toNat (op : Nibble) (x y : RegIndex) (n : Nibble) :
    (encodeXYN op x y n).toNat = op.toNat * 4096 + x.val * 256 + y.val * 16 + n.toNat := by
  have hx := x.isLt; have hy := y.isLt; have hn := n.isLt
  simp only [encodeXYN, regNibble, BitVec.toNat_append, BitVec.toNat_ofFin]
  rw [← Nat.shiftLeft_add_eq_or_of_lt hn, ← Nat.shiftLeft_add_eq_or_of_lt (show y.val < 2 ^ 4 from hy),
    ← Nat.shiftLeft_add_eq_or_of_lt (show x.val < 2 ^ 4 from hx)]
  simp only [Nat.shiftLeft_eq]; omega

/-! A word of pattern `_nnn` (R49). -/

theorem encodeNNN_toNat (op : Nibble) (nnn : Addr) : (encodeNNN op nnn).toNat = op.toNat * 4096 + nnn.toNat := by
  have hn := nnn.isLt
  simp only [encodeNNN, BitVec.toNat_append]
  rw [← Nat.shiftLeft_add_eq_or_of_lt hn, Nat.shiftLeft_eq]

/-! The fields as numbers (R49). -/

@[simp] theorem opField_toNat (w : Word) : (opField w).toNat = w.toNat / 4096 := by
  simp [opField, Nat.shiftRight_eq_div_pow]; omega

@[simp] theorem xField_val (w : Word) : (xField w).val = w.toNat / 256 % 16 := by
  simp [xField, Nat.shiftRight_eq_div_pow]

@[simp] theorem yField_val (w : Word) : (yField w).val = w.toNat / 16 % 16 := by
  simp [yField, Nat.shiftRight_eq_div_pow]

@[simp] theorem nField_toNat (w : Word) : (nField w).toNat = w.toNat % 16 := by
  simp [nField]

@[simp] theorem kkField_toNat (w : Word) : (kkField w).toNat = w.toNat % 256 := by
  simp [kkField]

@[simp] theorem nnnField_toNat (w : Word) : (nnnField w).toNat = w.toNat % 4096 := by
  simp [nnnField]

/-! The fields of an encoded word. -/

@[simp] theorem opField_encodeXKK (op : Nibble) (x : RegIndex) (kk : Byte) : opField (encodeXKK op x kk) = op :=
  BitVec.eq_of_toNat_eq (by rw [opField_toNat, encodeXKK_toNat]; have := x.isLt; have := kk.isLt; omega)

@[simp] theorem xField_encodeXKK (op : Nibble) (x : RegIndex) (kk : Byte) : xField (encodeXKK op x kk) = x :=
  Fin.ext (by rw [xField_val, encodeXKK_toNat]; have := x.isLt; have := kk.isLt; omega)

@[simp] theorem kkField_encodeXKK (op : Nibble) (x : RegIndex) (kk : Byte) : kkField (encodeXKK op x kk) = kk :=
  BitVec.eq_of_toNat_eq (by rw [kkField_toNat, encodeXKK_toNat]; have := kk.isLt; omega)

@[simp] theorem opField_encodeXYN (op : Nibble) (x y : RegIndex) (n : Nibble) : opField (encodeXYN op x y n) = op :=
  BitVec.eq_of_toNat_eq (by
    rw [opField_toNat, encodeXYN_toNat]; have := x.isLt; have := y.isLt; have := n.isLt; omega)

@[simp] theorem xField_encodeXYN (op : Nibble) (x y : RegIndex) (n : Nibble) : xField (encodeXYN op x y n) = x :=
  Fin.ext (by rw [xField_val, encodeXYN_toNat]; have := x.isLt; have := y.isLt; have := n.isLt; omega)

@[simp] theorem yField_encodeXYN (op : Nibble) (x y : RegIndex) (n : Nibble) : yField (encodeXYN op x y n) = y :=
  Fin.ext (by rw [yField_val, encodeXYN_toNat]; have := y.isLt; have := n.isLt; omega)

@[simp] theorem nField_encodeXYN (op : Nibble) (x y : RegIndex) (n : Nibble) : nField (encodeXYN op x y n) = n :=
  BitVec.eq_of_toNat_eq (by rw [nField_toNat, encodeXYN_toNat]; have := n.isLt; omega)

@[simp] theorem opField_encodeNNN (op : Nibble) (nnn : Addr) : opField (encodeNNN op nnn) = op :=
  BitVec.eq_of_toNat_eq (by rw [opField_toNat, encodeNNN_toNat]; have := nnn.isLt; omega)

@[simp] theorem nnnField_encodeNNN (op : Nibble) (nnn : Addr) : nnnField (encodeNNN op nnn) = nnn :=
  BitVec.eq_of_toNat_eq (by rw [nnnField_toNat, encodeNNN_toNat]; have := nnn.isLt; omega)

/-! The masks of the opcode table, by the fields they keep. -/

theorem and_opMask (w : Word) : w &&& 0xF000 = opField w ++ 0x000#12 := by
  apply BitVec.eq_of_getLsbD_eq; intro i hi
  simp only [opField, BitVec.getLsbD_and, BitVec.getLsbD_append, BitVec.getLsbD_extractLsb']
  interval_cases i <;> simp

theorem and_opNMask (w : Word) : w &&& 0xF00F = opField w ++ 0x00#8 ++ nField w := by
  apply BitVec.eq_of_getLsbD_eq; intro i hi
  simp only [opField, nField, BitVec.getLsbD_and, BitVec.getLsbD_append, BitVec.getLsbD_extractLsb']
  interval_cases i <;> simp

theorem and_opKKMask (w : Word) : w &&& 0xF0FF = opField w ++ 0x0#4 ++ kkField w := by
  apply BitVec.eq_of_getLsbD_eq; intro i hi
  simp only [opField, kkField, BitVec.getLsbD_and, BitVec.getLsbD_append, BitVec.getLsbD_extractLsb']
  interval_cases i <;> simp

/-! Bytes. -/

/-- A word is composed from its bytes (R34). -/
theorem composeWord_toNat (hi lo : Byte) : (composeWord hi lo).toNat = hi.toNat * 256 + lo.toNat := by
  simp only [composeWord, BitVec.toNat_append]
  rw [← Nat.shiftLeft_add_eq_or_of_lt lo.isLt, Nat.shiftLeft_eq]

/-- The decoder reads back the word its bytes are laid out from, and leaves the rest. -/
theorem decode_wordBytes (w : Word) (rest : List Byte) :
    decode (wordBytes w ++ rest) =
      match decodeWord w with
      | some i => .ok (i, rest)
      | none => .error (.invalidOpcode w) := by
  have hw : composeWord (w.extractLsb' 8 8) (w.extractLsb' 0 8) = w := by
    apply BitVec.eq_of_toNat_eq
    rw [composeWord_toNat]
    simp only [BitVec.extractLsb'_toNat, Nat.shiftRight_eq_div_pow]
    omega
  cases h : decodeWord w <;> simp only [wordBytes, List.cons_append, List.nil_append, decode, hw, h]

end Sys2Proof
end

