-- ==== Sys2Proof/Laws/Framebuffer.lean ====
section
/-! SUPPORT. The laws of the framebuffer controller: what a cell is after a clear, a toggle, a sprite row and a sprite. -/

namespace Sys2Proof.Machine

/-- Coordinates wrap (R93). -/
theorem Framebuffer.isSet_mod (fb : Framebuffer) (c r : Nat) : fb.isSet (c % 64) (r % 32) = fb.isSet c r := by
  simp [Framebuffer.isSet, fbWidth, fbHeight]

theorem Framebuffer.isSet_congr (fb : Framebuffer) {c c' r r' : Nat} (hc : c % 64 = c' % 64) (hr : r % 32 = r' % 32) :
    fb.isSet c r = fb.isSet c' r' := by
  rw [← fb.isSet_mod c r, hc, hr, fb.isSet_mod]

@[simp] theorem Framebuffer.isSet_clear (c r : Nat) : Framebuffer.clear.isSet c r = false := by
  simp [Framebuffer.isSet, Framebuffer.clear]

/-- A toggle inverts its own cell and no other (R93). -/
theorem Framebuffer.isSet_invert (fb : Framebuffer) (c r c' r' : Nat) :
    (fb.invert c r).isSet c' r' =
      if c' % 64 = c % 64 ∧ r' % 32 = r % 32 then !fb.isSet c' r' else fb.isSet c' r' := by
  have hc : c % 64 < 64 := Nat.mod_lt c (by decide)
  simp only [Framebuffer.isSet, Framebuffer.invert, fbWidth, fbHeight, Vector.getElem_set]
  by_cases hr : r' % 32 = r % 32
  · by_cases hcc : c' % 64 = c % 64
    · simp [hr, hcc, hc]
    · simp [hr, hcc, Ne.symm hcc]
  · simp [hr, Ne.symm hr]

/-- The cells a sprite row sets a bit for, over the column offsets `js`. -/
def RowCovers (cx ry : Nat) (row : Byte) (js : List Nat) (c r : Nat) : Prop :=
  r % 32 = ry % 32 ∧ ∃ j ∈ js, spriteBit row j = true ∧ c % 64 = (cx + j) % 64

/-- The cells a sprite sets a bit for, its first row at `ry` (R94, R96). -/
def RowsCover (cx : Nat) : Nat → List Byte → Nat → Nat → Prop
  | _, [], _, _ => False
  | ry, row :: rows, c, r => RowCovers cx ry row spriteColumns c r ∨ RowsCover cx (ry + 1) rows c r

/-- A drawing: it inverts the covered cells and no other, and its collision says whether one of them was set. -/
structure Draws (covers : Nat → Nat → Prop) (before after : Framebuffer × Bool) : Prop where
  inverted : ∀ c r, covers c r → after.1.isSet c r = !before.1.isSet c r
  kept : ∀ c r, ¬ covers c r → after.1.isSet c r = before.1.isSet c r
  collision : after.2 = true ↔ before.2 = true ∨ ∃ c r, covers c r ∧ before.1.isSet c r = true

theorem drawRow_draws (cx ry : Nat) (row : Byte) (js : List Nat) (hd : js.Nodup) (hj : ∀ j ∈ js, j < 64)
    (drawn : Framebuffer × Bool) : Draws (RowCovers cx ry row js) drawn (drawRow cx ry row js drawn) := by
  induction js generalizing drawn with
  | nil => exact ⟨by simp [RowCovers], by simp [drawRow], by simp [drawRow, RowCovers]⟩
  | cons j js ih =>
    obtain ⟨fb, col⟩ := drawn
    rw [List.nodup_cons] at hd
    have hj' : ∀ k ∈ js, k < 64 := fun k hk => hj k (List.mem_cons_of_mem _ hk)
    have hjlt : j < 64 := hj j List.mem_cons_self
    simp only [drawRow]
    by_cases hb : spriteBit row j = true
    · rw [if_pos hb]
      have h := ih hd.2 hj' ((fb.togglePixel (cx + j) ry).1, (fb.togglePixel (cx + j) ry).2 || col)
      simp only [Framebuffer.togglePixel] at h ⊢
      -- no later offset reaches the cell this one inverts
      have hfresh : ∀ c r, RowCovers cx ry row js c r → c % 64 ≠ (cx + j) % 64 := by
        rintro c r ⟨-, k, hk, -, hc⟩ hcj
        have := hj' k hk
        have : k ≠ j := fun h => hd.1 (h ▸ hk)
        omega
      have hcov : ∀ c r, RowCovers cx ry row (j :: js) c r ↔
          (c % 64 = (cx + j) % 64 ∧ r % 32 = ry % 32) ∨ RowCovers cx ry row js c r := by
        intro c r; simp only [RowCovers, List.mem_cons]
        constructor
        · rintro ⟨hr, k, rfl | hk, h1, h2⟩
          · exact .inl ⟨h2, hr⟩
          · exact .inr ⟨hr, k, hk, h1, h2⟩
        · rintro (⟨h2, hr⟩ | ⟨hr, k, hk, h1, h2⟩)
          · exact ⟨hr, j, .inl rfl, hb, h2⟩
          · exact ⟨hr, k, .inr hk, h1, h2⟩
      refine ⟨fun c r hc => ?_, fun c r hc => ?_, ?_⟩
      · rcases (hcov c r).mp hc with hself | hlater
        · rw [h.kept c r (fun hl => hfresh c r hl hself.1), Framebuffer.isSet_invert, if_pos hself]
        · rw [h.inverted c r hlater, Framebuffer.isSet_invert, if_neg (fun hs => hfresh c r hlater hs.1)]
      · rw [hcov] at hc
        rw [h.kept c r (fun hl => hc (.inr hl)), Framebuffer.isSet_invert, if_neg (fun hs => hc (.inl hs))]
      · rw [h.collision, Bool.or_eq_true]
        constructor
        · rintro ((hset | hcol) | ⟨c, r, hl, hset⟩)
          · exact .inr ⟨cx + j, ry, (hcov _ _).mpr (.inl ⟨rfl, rfl⟩), hset⟩
          · exact .inl hcol
          · refine .inr ⟨c, r, (hcov c r).mpr (.inr hl), ?_⟩
            rwa [Framebuffer.isSet_invert, if_neg (fun hs => hfresh c r hl hs.1)] at hset
        · rintro (hcol | ⟨c, r, hc, hset⟩)
          · exact .inl (.inr hcol)
          · rcases (hcov c r).mp hc with hself | hlater
            · exact .inl (.inl (by rwa [fb.isSet_congr hself.1 hself.2] at hset))
            · refine .inr ⟨c, r, hlater, ?_⟩
              rwa [Framebuffer.isSet_invert, if_neg (fun hs => hfresh c r hlater hs.1)]
    · rw [if_neg hb]
      have h := ih hd.2 hj' (fb, col)
      have hcov : ∀ c r, RowCovers cx ry row (j :: js) c r ↔ RowCovers cx ry row js c r := by
        intro c r; simp [RowCovers, hb]
      exact ⟨fun c r hc => h.inverted c r ((hcov c r).mp hc), fun c r hc => h.kept c r (fun hl => hc ((hcov c r).mpr hl)),
        by simpa only [hcov] using h.collision⟩

/-- A cell a sprite covers is in one of its rows. -/
theorem RowsCover.row {cx ry : Nat} {rows : List Byte} {c r : Nat} (h : RowsCover cx ry rows c r) :
    ∃ k, k < rows.length ∧ r % 32 = (ry + k) % 32 := by
  induction rows generalizing ry with
  | nil => exact h.elim
  | cons row rows ih =>
    rcases h with h | h
    · exact ⟨0, by simp, h.1⟩
    · obtain ⟨k, hk, hr⟩ := ih h
      exact ⟨k + 1, by simpa using hk, by rw [hr]; congr 1; omega⟩

/-- A sprite of at most 32 rows inverts the cells it sets a bit for, each once, and its collision says whether one of them
was set (R96). -/
theorem drawSprite_draws (cx ry : Nat) (rows : List Byte) (hn : rows.length ≤ 32) (drawn : Framebuffer × Bool) :
    Draws (RowsCover cx ry rows) drawn (drawSprite cx ry rows drawn) := by
  induction rows generalizing ry drawn with
  | nil => exact ⟨by simp [RowsCover], by simp [drawSprite], by simp [drawSprite, RowsCover]⟩
  | cons row rows ih =>
    simp only [List.length_cons] at hn
    have hrow := drawRow_draws cx ry row spriteColumns (by decide) (by decide) drawn
    have hrest := ih (ry + 1) (by omega) (drawRow cx ry row spriteColumns drawn)
    have hfresh : ∀ c r, RowsCover cx (ry + 1) rows c r → ¬ RowCovers cx ry row spriteColumns c r := by
      rintro c r hl ⟨hr, -⟩
      obtain ⟨k, hk, hr'⟩ := hl.row
      omega
    refine ⟨fun c r hc => ?_, fun c r hc => ?_, ?_⟩
    · rcases hc with hc | hc
      · exact (hrest.kept c r (fun hl => hfresh c r hl hc)).trans (hrow.inverted c r hc)
      · exact (hrest.inverted c r hc).trans (congrArg _ (hrow.kept c r (hfresh c r hc)))
    · exact (hrest.kept c r (fun hl => hc (.inr hl))).trans (hrow.kept c r (fun hl => hc (.inl hl)))
    · simp only [drawSprite]
      rw [hrest.collision, hrow.collision]
      constructor
      · rintro ((h | ⟨c, r, hc, hs⟩) | ⟨c, r, hc, hs⟩)
        · exact .inl h
        · exact .inr ⟨c, r, .inl hc, hs⟩
        · exact .inr ⟨c, r, .inr hc, by rwa [hrow.kept c r (hfresh c r hc)] at hs⟩
      · rintro (h | ⟨c, r, hc | hc, hs⟩)
        · exact .inl (.inl h)
        · exact .inl (.inr ⟨c, r, hc, hs⟩)
        · exact .inr ⟨c, r, hc, by rwa [hrow.kept c r (hfresh c r hc)]⟩

/-- The cells a sprite covers, by row number and column offset. -/
theorem rowsCover_iff (cx ry : Nat) (rows : List Byte) (c r : Nat) :
    RowsCover cx ry rows c r ↔ ∃ k j b, rows[k]? = some b ∧ j < 8 ∧ b.getLsbD (7 - j) = true ∧
      c % 64 = (cx + j) % 64 ∧ r % 32 = (ry + k) % 32 := by
  have hcol : ∀ j, j ∈ spriteColumns ↔ j < 8 := by simp [spriteColumns]; omega
  induction rows generalizing ry with
  | nil => simp [RowsCover]
  | cons row rows ih =>
    simp only [RowsCover, ih, RowCovers, hcol, spriteBit]
    constructor
    · rintro (⟨hr, j, hj, hb, hc⟩ | ⟨k, j, b, hk, hj, hb, hc, hr⟩)
      · exact ⟨0, j, row, rfl, hj, hb, hc, hr⟩
      · exact ⟨k + 1, j, b, by simpa using hk, hj, hb, hc, by rw [hr]; congr 1; omega⟩
    · rintro ⟨k, j, b, hk, hj, hb, hc, hr⟩
      cases k with
      | zero => simp at hk; subst hk; exact .inl ⟨hr, j, hj, hb, hc⟩
      | succ k => exact .inr ⟨k, j, b, by simpa using hk, hj, hb, hc, by rw [hr]; congr 1; omega⟩

end Sys2Proof.Machine
end

