-- ==== Sys2Proof/Laws/Memory.lean ====
section
/-! SUPPORT. The laws of MEM: what a byte reads as after a write, what the multi-byte accesses answer, and that every
operation keeps the canonical form. -/

namespace Sys2Proof.Machine

/-! The cell list. -/

theorem lookupCell_insertCell (cells : List Host.Cell) (a c : Nat) (b : Byte) :
    lookupCell (insertCell cells a b) c = if c = a then some b else lookupCell cells c := by
  induction cells with
  | nil => simp [insertCell, lookupCell, eq_comm]
  | cons head cells ih =>
    obtain ⟨a', b'⟩ := head
    simp only [insertCell]
    split
    · simp [lookupCell, eq_comm]
    · split
      · rename_i h; subst h; by_cases h : a = c <;> simp [lookupCell, h, eq_comm (a := c)]
      · by_cases h : a' = c <;> simp_all [lookupCell]; omega

theorem lookupCell_eraseCell (cells : List Host.Cell) (a c : Nat) :
    lookupCell (eraseCell cells a) c = if c = a then none else lookupCell cells c := by
  induction cells with
  | nil => simp [eraseCell, lookupCell]
  | cons head cells ih =>
    obtain ⟨a', b'⟩ := head
    simp only [eraseCell]
    split
    · subst_vars; by_cases h : c = a' <;> simp_all [lookupCell, eq_comm]
    · by_cases h : a' = c <;> simp_all [lookupCell]

theorem cellsRise_mono {lo lo' : Nat} (h : lo' ≤ lo) {cells : List Host.Cell} (hc : cellsRise lo cells = true) :
    cellsRise lo' cells = true := by
  cases cells with
  | nil => rfl
  | cons head cells => simp_all [cellsRise]; omega

theorem cellsRise_eraseCell {lo : Nat} (a : Nat) {cells : List Host.Cell} (hc : cellsRise lo cells = true) :
    cellsRise lo (eraseCell cells a) = true := by
  induction cells generalizing lo with
  | nil => rfl
  | cons head cells ih =>
    obtain ⟨a', b'⟩ := head
    simp only [cellsRise, Bool.and_eq_true, decide_eq_true_eq] at hc
    simp only [eraseCell]
    split
    · exact ih (cellsRise_mono (by omega) hc.2)
    · simp [cellsRise, hc.1, ih hc.2]

theorem cellsRise_insertCell {lo a : Nat} (b : Byte) {cells : List Host.Cell} (ha : lo ≤ a)
    (hc : cellsRise lo cells = true) : cellsRise lo (insertCell cells a b) = true := by
  induction cells generalizing lo with
  | nil => simp [insertCell, cellsRise, ha]
  | cons head cells ih =>
    obtain ⟨a', b'⟩ := head
    simp only [cellsRise, Bool.and_eq_true, decide_eq_true_eq] at hc
    simp only [insertCell]
    split
    · simp [cellsRise, ha, hc.2]; omega
    · split
      · subst_vars; simp [cellsRise, hc]
      · simp [cellsRise, hc.1, ih (lo := a' + 1) (by omega) hc.2]

theorem mem_eraseCell {a : Nat} {cells : List Host.Cell} {c : Host.Cell} (hc : c ∈ eraseCell cells a) : c ∈ cells := by
  induction cells with
  | nil => simp [eraseCell] at hc
  | cons head cells ih =>
    simp only [eraseCell] at hc
    split at hc
    · exact List.mem_cons_of_mem _ (ih hc)
    · rcases List.mem_cons.mp hc with rfl | h
      · exact List.mem_cons_self
      · exact List.mem_cons_of_mem _ (ih h)

theorem mem_insertCell {a : Nat} {b : Byte} {cells : List Host.Cell} {c : Host.Cell}
    (hc : c ∈ insertCell cells a b) : c = (a, b) ∨ c ∈ cells := by
  induction cells with
  | nil => simpa [insertCell] using hc
  | cons head cells ih =>
    simp only [insertCell] at hc
    split at hc
    · simpa using hc
    · split at hc
      · rcases List.mem_cons.mp hc with h | h
        · exact .inl h
        · exact .inr (List.mem_cons_of_mem _ h)
      · rcases List.mem_cons.mp hc with h | h
        · exact .inr (h ▸ List.mem_cons_self)
        · exact (ih h).imp_right (List.mem_cons_of_mem _)

/-! One byte. -/

@[simp] theorem Memory.setByte_font (m : Memory) (a : Nat) (b : Byte) : (m.setByte a b).font = m.font := rfl

@[simp] theorem Memory.setByte_unlisted (m : Memory) (a c : Nat) (b : Byte) :
    (m.setByte a b).unlisted c = m.unlisted c := rfl

/-- A byte read after a write: the written byte at its address, the old byte at every other. -/
theorem Memory.byteAt_setByte (m : Memory) (a c : Nat) (b : Byte) :
    (m.setByte a b).byteAt c = if c = a then b else m.byteAt c := by
  unfold Memory.byteAt
  rw [Memory.setByte_unlisted]
  simp only [Memory.setByte]
  by_cases hb : b = m.unlisted a
  · rw [if_pos hb, lookupCell_eraseCell]
    by_cases hc : c = a <;> simp [hc, hb]
  · rw [if_neg hb, lookupCell_insertCell]
    by_cases hc : c = a <;> simp [hc]

/-- What the canonical form says of the cells. -/
theorem Memory.wf_iff (m : Memory) :
    m.wf = true ↔ cellsRise 0 m.cells = true ∧ ∀ c ∈ m.cells, c.1 < memSize ∧ c.2 ≠ m.unlisted c.1 := by
  simp [Memory.wf]

/-- A write in range keeps the canonical form. -/
theorem Memory.wf_setByte {m : Memory} (hm : m.wf = true) {a : Nat} (ha : a < memSize) (b : Byte) :
    (m.setByte a b).wf = true := by
  rw [Memory.wf_iff] at hm ⊢
  simp only [Memory.setByte_unlisted]
  by_cases hb : b = m.unlisted a
  · simp only [Memory.setByte, if_pos hb]
    exact ⟨cellsRise_eraseCell a hm.1, fun c hc => hm.2 c (mem_eraseCell hc)⟩
  · simp only [Memory.setByte, if_neg hb]
    refine ⟨cellsRise_insertCell b (Nat.zero_le a) hm.1, fun c hc => ?_⟩
    rcases mem_insertCell hc with rfl | h
    · exact ⟨ha, hb⟩
    · exact hm.2 c h

theorem Memory.read_of_lt (m : Memory) {a : Nat} (h : a < memSize) : m.read a = .ok (m.byteAt a) := by
  simp [Memory.read, h]

theorem Memory.read_of_ge (m : Memory) {a : Nat} (h : memSize ≤ a) : m.read a = .error a := by
  simp [Memory.read, Nat.not_lt.mpr h]

/-- A read answers a byte only in range. -/
theorem Memory.read_eq_ok_iff (m : Memory) (a : Nat) (b : Byte) :
    m.read a = .ok b ↔ a < memSize ∧ m.byteAt a = b := by
  unfold Memory.read
  split <;> simp_all

/-! Ranges. -/

@[simp] theorem Memory.setBytes_font (m : Memory) (a : Nat) (bs : List Byte) : (m.setBytes a bs).font = m.font := by
  induction bs generalizing m a with
  | nil => rfl
  | cons b bs ih => simp [Memory.setBytes, ih]

/-- A byte read after a range is written: the written byte inside the range, the old byte outside. -/
theorem Memory.byteAt_setBytes (m : Memory) (a c : Nat) (bs : List Byte) :
    (m.setBytes a bs).byteAt c = if a ≤ c then (bs[c - a]?).getD (m.byteAt c) else m.byteAt c := by
  induction bs generalizing m a with
  | nil => simp [Memory.setBytes]
  | cons b bs ih =>
    rw [Memory.setBytes, ih, Memory.byteAt_setByte]
    by_cases h : a < c
    · have h1 : c - a = (c - (a + 1)) + 1 := by omega
      simp [h1, Nat.succ_le_of_lt h, Nat.le_of_lt h, Nat.ne_of_gt h]
    · by_cases h2 : c = a
      · subst h2; simp
      · have : ¬ a ≤ c := by omega
        have : ¬ a + 1 ≤ c := by omega
        simp [*]

/-- A range written in range keeps the canonical form. -/
theorem Memory.wf_setBytes {m : Memory} (hm : m.wf = true) {a : Nat} {bs : List Byte}
    (h : a + bs.length ≤ memSize) : (m.setBytes a bs).wf = true := by
  induction bs generalizing m a with
  | nil => exact hm
  | cons b bs ih =>
    simp only [List.length_cons] at h
    exact ih (Memory.wf_setByte hm (by omega) b) (by omega)

/-- A range in range is read whole. -/
theorem Memory.readRange_of_le (m : Memory) {a n : Nat} (h : n = 0 ∨ a + n ≤ memSize) :
    m.readRange a n = .ok ((List.range' a n).map m.byteAt) := by
  induction n generalizing a with
  | zero => rfl
  | succ n ih =>
    have h' : a + (n + 1) ≤ memSize := by omega
    simp [Memory.readRange, m.read_of_lt (show a < memSize by omega), ih (a := a + 1) (by omega), List.range'_succ]

/-- A range that leaves the memory answers its lowest address out of range (D30). -/
theorem Memory.readRange_of_gt (m : Memory) {a n : Nat} (hn : n ≠ 0) (h : memSize < a + n) :
    m.readRange a n = .error (max a memSize) := by
  induction n generalizing a with
  | zero => exact absurd rfl hn
  | succ n ih =>
    by_cases ha : a < memSize
    · simp [Memory.readRange, m.read_of_lt ha, ih (a := a + 1) (by omega) (by omega)]; omega
    · simp [Memory.readRange, m.read_of_ge (Nat.not_lt.mp ha)]; omega

/-- A range in range is written whole. -/
theorem Memory.writeRange_of_le (m : Memory) {a : Nat} {bs : List Byte} (h : bs = [] ∨ a + bs.length ≤ memSize) :
    m.writeRange a bs = .ok (m.setBytes a bs) := by
  induction bs generalizing m a with
  | nil => rfl
  | cons b bs ih =>
    have h' : a + (bs.length + 1) ≤ memSize := by simpa using h
    have ha : a < memSize := by omega
    simp [Memory.writeRange, Memory.write, ha, Memory.setBytes, ih (m.setByte a b) (a := a + 1) (by omega)]

/-- A range that leaves the memory is not written, and answers its lowest address out of range (D30). -/
theorem Memory.writeRange_of_gt (m : Memory) {a : Nat} {bs : List Byte} (hn : bs ≠ []) (h : memSize < a + bs.length) :
    m.writeRange a bs = .error (max a memSize) := by
  induction bs generalizing m a with
  | nil => exact absurd rfl hn
  | cons b bs ih =>
    simp only [List.length_cons] at h
    by_cases ha : a < memSize
    · simp [Memory.writeRange, Memory.write, ha, ih (m.setByte a b) (a := a + 1) (by rintro rfl; simp at h; omega) (by omega)]
      omega
    · simp [Memory.writeRange, Memory.write, ha]; omega

/-- The instruction word in range (R34). -/
theorem Memory.readWord_of_lt (m : Memory) {a : Nat} (h : a + 1 < memSize) :
    m.readWord a = .ok (composeWord (m.byteAt a) (m.byteAt (a + 1))) := by
  simp [Memory.readWord, m.read_of_lt h, m.read_of_lt (show a < memSize by omega)]

/-- The fetch out of range answers the lower of its addresses that is out of range (R37, D30). -/
theorem Memory.readWord_of_ge (m : Memory) {a : Nat} (h : memSize ≤ a + 1) :
    m.readWord a = .error (max a memSize) := by
  by_cases ha : a < memSize
  · simp [Memory.readWord, m.read_of_lt ha, m.read_of_ge h]; omega
  · simp [Memory.readWord, m.read_of_ge (Nat.not_lt.mp ha)]; omega

end Sys2Proof.Machine
end

