-- ==== Sys2Proof/Laws/State.lean ====
section
/-! SUPPORT. What each named update of the state does to each field, so that no proof unfolds a record update. -/

namespace Sys2Proof.Machine.State

variable (s : State)

@[simp] theorem setReg_v (x : RegIndex) (b : Byte) : (s.setReg x b).v = s.v.set x.val b x.isLt := rfl
@[simp] theorem setReg_i (x : RegIndex) (b : Byte) : (s.setReg x b).i = s.i := rfl
@[simp] theorem setReg_pc (x : RegIndex) (b : Byte) : (s.setReg x b).pc = s.pc := rfl
@[simp] theorem setReg_sp (x : RegIndex) (b : Byte) : (s.setReg x b).sp = s.sp := rfl
@[simp] theorem setReg_stack (x : RegIndex) (b : Byte) : (s.setReg x b).stack = s.stack := rfl
@[simp] theorem setReg_dt (x : RegIndex) (b : Byte) : (s.setReg x b).dt = s.dt := rfl
@[simp] theorem setReg_st (x : RegIndex) (b : Byte) : (s.setReg x b).st = s.st := rfl
@[simp] theorem setReg_mem (x : RegIndex) (b : Byte) : (s.setReg x b).mem = s.mem := rfl
@[simp] theorem setReg_fb (x : RegIndex) (b : Byte) : (s.setReg x b).fb = s.fb := rfl
@[simp] theorem setReg_wait (x : RegIndex) (b : Byte) : (s.setReg x b).wait = s.wait := rfl
@[simp] theorem setReg_kprev (x : RegIndex) (b : Byte) : (s.setReg x b).kprev = s.kprev := rfl
@[simp] theorem setReg_fault (x : RegIndex) (b : Byte) : (s.setReg x b).fault = s.fault := rfl
@[simp] theorem setReg_keys (x : RegIndex) (b : Byte) : (s.setReg x b).keys = s.keys := rfl
@[simp] theorem setReg_rnd (x : RegIndex) (b : Byte) : (s.setReg x b).rnd = s.rnd := rfl
@[simp] theorem setReg_env (x : RegIndex) (b : Byte) : (s.setReg x b).env = s.env := rfl
@[simp] theorem setReg_samples (x : RegIndex) (b : Byte) : (s.setReg x b).samples = s.samples := rfl

@[simp] theorem setRegs_v (bs : List Byte) : (s.setRegs bs).v = storeRegs s.v 0 bs := rfl
@[simp] theorem setRegs_i (bs : List Byte) : (s.setRegs bs).i = s.i := rfl
@[simp] theorem setRegs_pc (bs : List Byte) : (s.setRegs bs).pc = s.pc := rfl
@[simp] theorem setRegs_sp (bs : List Byte) : (s.setRegs bs).sp = s.sp := rfl
@[simp] theorem setRegs_stack (bs : List Byte) : (s.setRegs bs).stack = s.stack := rfl
@[simp] theorem setRegs_dt (bs : List Byte) : (s.setRegs bs).dt = s.dt := rfl
@[simp] theorem setRegs_st (bs : List Byte) : (s.setRegs bs).st = s.st := rfl
@[simp] theorem setRegs_mem (bs : List Byte) : (s.setRegs bs).mem = s.mem := rfl
@[simp] theorem setRegs_fb (bs : List Byte) : (s.setRegs bs).fb = s.fb := rfl
@[simp] theorem setRegs_wait (bs : List Byte) : (s.setRegs bs).wait = s.wait := rfl
@[simp] theorem setRegs_kprev (bs : List Byte) : (s.setRegs bs).kprev = s.kprev := rfl
@[simp] theorem setRegs_fault (bs : List Byte) : (s.setRegs bs).fault = s.fault := rfl
@[simp] theorem setRegs_keys (bs : List Byte) : (s.setRegs bs).keys = s.keys := rfl
@[simp] theorem setRegs_rnd (bs : List Byte) : (s.setRegs bs).rnd = s.rnd := rfl
@[simp] theorem setRegs_env (bs : List Byte) : (s.setRegs bs).env = s.env := rfl
@[simp] theorem setRegs_samples (bs : List Byte) : (s.setRegs bs).samples = s.samples := rfl

@[simp] theorem setI_v (a : Word) : (s.setI a).v = s.v := rfl
@[simp] theorem setI_i (a : Word) : (s.setI a).i = a := rfl
@[simp] theorem setI_pc (a : Word) : (s.setI a).pc = s.pc := rfl
@[simp] theorem setI_sp (a : Word) : (s.setI a).sp = s.sp := rfl
@[simp] theorem setI_stack (a : Word) : (s.setI a).stack = s.stack := rfl
@[simp] theorem setI_dt (a : Word) : (s.setI a).dt = s.dt := rfl
@[simp] theorem setI_st (a : Word) : (s.setI a).st = s.st := rfl
@[simp] theorem setI_mem (a : Word) : (s.setI a).mem = s.mem := rfl
@[simp] theorem setI_fb (a : Word) : (s.setI a).fb = s.fb := rfl
@[simp] theorem setI_wait (a : Word) : (s.setI a).wait = s.wait := rfl
@[simp] theorem setI_kprev (a : Word) : (s.setI a).kprev = s.kprev := rfl
@[simp] theorem setI_fault (a : Word) : (s.setI a).fault = s.fault := rfl
@[simp] theorem setI_keys (a : Word) : (s.setI a).keys = s.keys := rfl
@[simp] theorem setI_rnd (a : Word) : (s.setI a).rnd = s.rnd := rfl
@[simp] theorem setI_env (a : Word) : (s.setI a).env = s.env := rfl
@[simp] theorem setI_samples (a : Word) : (s.setI a).samples = s.samples := rfl

@[simp] theorem setPc_v (a : Word) : (s.setPc a).v = s.v := rfl
@[simp] theorem setPc_i (a : Word) : (s.setPc a).i = s.i := rfl
@[simp] theorem setPc_pc (a : Word) : (s.setPc a).pc = a := rfl
@[simp] theorem setPc_sp (a : Word) : (s.setPc a).sp = s.sp := rfl
@[simp] theorem setPc_stack (a : Word) : (s.setPc a).stack = s.stack := rfl
@[simp] theorem setPc_dt (a : Word) : (s.setPc a).dt = s.dt := rfl
@[simp] theorem setPc_st (a : Word) : (s.setPc a).st = s.st := rfl
@[simp] theorem setPc_mem (a : Word) : (s.setPc a).mem = s.mem := rfl
@[simp] theorem setPc_fb (a : Word) : (s.setPc a).fb = s.fb := rfl
@[simp] theorem setPc_wait (a : Word) : (s.setPc a).wait = s.wait := rfl
@[simp] theorem setPc_kprev (a : Word) : (s.setPc a).kprev = s.kprev := rfl
@[simp] theorem setPc_fault (a : Word) : (s.setPc a).fault = s.fault := rfl
@[simp] theorem setPc_keys (a : Word) : (s.setPc a).keys = s.keys := rfl
@[simp] theorem setPc_rnd (a : Word) : (s.setPc a).rnd = s.rnd := rfl
@[simp] theorem setPc_env (a : Word) : (s.setPc a).env = s.env := rfl
@[simp] theorem setPc_samples (a : Word) : (s.setPc a).samples = s.samples := rfl

@[simp] theorem advance_v : (s.advance).v = s.v := rfl
@[simp] theorem advance_i : (s.advance).i = s.i := rfl
@[simp] theorem advance_pc : (s.advance).pc = s.pc + 2 := rfl
@[simp] theorem advance_sp : (s.advance).sp = s.sp := rfl
@[simp] theorem advance_stack : (s.advance).stack = s.stack := rfl
@[simp] theorem advance_dt : (s.advance).dt = s.dt := rfl
@[simp] theorem advance_st : (s.advance).st = s.st := rfl
@[simp] theorem advance_mem : (s.advance).mem = s.mem := rfl
@[simp] theorem advance_fb : (s.advance).fb = s.fb := rfl
@[simp] theorem advance_wait : (s.advance).wait = s.wait := rfl
@[simp] theorem advance_kprev : (s.advance).kprev = s.kprev := rfl
@[simp] theorem advance_fault : (s.advance).fault = s.fault := rfl
@[simp] theorem advance_keys : (s.advance).keys = s.keys := rfl
@[simp] theorem advance_rnd : (s.advance).rnd = s.rnd := rfl
@[simp] theorem advance_env : (s.advance).env = s.env := rfl
@[simp] theorem advance_samples : (s.advance).samples = s.samples := rfl

@[simp] theorem setDt_v (b : Byte) : (s.setDt b).v = s.v := rfl
@[simp] theorem setDt_i (b : Byte) : (s.setDt b).i = s.i := rfl
@[simp] theorem setDt_pc (b : Byte) : (s.setDt b).pc = s.pc := rfl
@[simp] theorem setDt_sp (b : Byte) : (s.setDt b).sp = s.sp := rfl
@[simp] theorem setDt_stack (b : Byte) : (s.setDt b).stack = s.stack := rfl
@[simp] theorem setDt_dt (b : Byte) : (s.setDt b).dt = b := rfl
@[simp] theorem setDt_st (b : Byte) : (s.setDt b).st = s.st := rfl
@[simp] theorem setDt_mem (b : Byte) : (s.setDt b).mem = s.mem := rfl
@[simp] theorem setDt_fb (b : Byte) : (s.setDt b).fb = s.fb := rfl
@[simp] theorem setDt_wait (b : Byte) : (s.setDt b).wait = s.wait := rfl
@[simp] theorem setDt_kprev (b : Byte) : (s.setDt b).kprev = s.kprev := rfl
@[simp] theorem setDt_fault (b : Byte) : (s.setDt b).fault = s.fault := rfl
@[simp] theorem setDt_keys (b : Byte) : (s.setDt b).keys = s.keys := rfl
@[simp] theorem setDt_rnd (b : Byte) : (s.setDt b).rnd = s.rnd := rfl
@[simp] theorem setDt_env (b : Byte) : (s.setDt b).env = s.env := rfl
@[simp] theorem setDt_samples (b : Byte) : (s.setDt b).samples = s.samples := rfl

@[simp] theorem setSt_v (b : Byte) : (s.setSt b).v = s.v := rfl
@[simp] theorem setSt_i (b : Byte) : (s.setSt b).i = s.i := rfl
@[simp] theorem setSt_pc (b : Byte) : (s.setSt b).pc = s.pc := rfl
@[simp] theorem setSt_sp (b : Byte) : (s.setSt b).sp = s.sp := rfl
@[simp] theorem setSt_stack (b : Byte) : (s.setSt b).stack = s.stack := rfl
@[simp] theorem setSt_dt (b : Byte) : (s.setSt b).dt = s.dt := rfl
@[simp] theorem setSt_st (b : Byte) : (s.setSt b).st = b := rfl
@[simp] theorem setSt_mem (b : Byte) : (s.setSt b).mem = s.mem := rfl
@[simp] theorem setSt_fb (b : Byte) : (s.setSt b).fb = s.fb := rfl
@[simp] theorem setSt_wait (b : Byte) : (s.setSt b).wait = s.wait := rfl
@[simp] theorem setSt_kprev (b : Byte) : (s.setSt b).kprev = s.kprev := rfl
@[simp] theorem setSt_fault (b : Byte) : (s.setSt b).fault = s.fault := rfl
@[simp] theorem setSt_keys (b : Byte) : (s.setSt b).keys = s.keys := rfl
@[simp] theorem setSt_rnd (b : Byte) : (s.setSt b).rnd = s.rnd := rfl
@[simp] theorem setSt_env (b : Byte) : (s.setSt b).env = s.env := rfl
@[simp] theorem setSt_samples (b : Byte) : (s.setSt b).samples = s.samples := rfl

@[simp] theorem setMem_v (m : Memory) : (s.setMem m).v = s.v := rfl
@[simp] theorem setMem_i (m : Memory) : (s.setMem m).i = s.i := rfl
@[simp] theorem setMem_pc (m : Memory) : (s.setMem m).pc = s.pc := rfl
@[simp] theorem setMem_sp (m : Memory) : (s.setMem m).sp = s.sp := rfl
@[simp] theorem setMem_stack (m : Memory) : (s.setMem m).stack = s.stack := rfl
@[simp] theorem setMem_dt (m : Memory) : (s.setMem m).dt = s.dt := rfl
@[simp] theorem setMem_st (m : Memory) : (s.setMem m).st = s.st := rfl
@[simp] theorem setMem_mem (m : Memory) : (s.setMem m).mem = m := rfl
@[simp] theorem setMem_fb (m : Memory) : (s.setMem m).fb = s.fb := rfl
@[simp] theorem setMem_wait (m : Memory) : (s.setMem m).wait = s.wait := rfl
@[simp] theorem setMem_kprev (m : Memory) : (s.setMem m).kprev = s.kprev := rfl
@[simp] theorem setMem_fault (m : Memory) : (s.setMem m).fault = s.fault := rfl
@[simp] theorem setMem_keys (m : Memory) : (s.setMem m).keys = s.keys := rfl
@[simp] theorem setMem_rnd (m : Memory) : (s.setMem m).rnd = s.rnd := rfl
@[simp] theorem setMem_env (m : Memory) : (s.setMem m).env = s.env := rfl
@[simp] theorem setMem_samples (m : Memory) : (s.setMem m).samples = s.samples := rfl

@[simp] theorem setFb_v (fb : Framebuffer) : (s.setFb fb).v = s.v := rfl
@[simp] theorem setFb_i (fb : Framebuffer) : (s.setFb fb).i = s.i := rfl
@[simp] theorem setFb_pc (fb : Framebuffer) : (s.setFb fb).pc = s.pc := rfl
@[simp] theorem setFb_sp (fb : Framebuffer) : (s.setFb fb).sp = s.sp := rfl
@[simp] theorem setFb_stack (fb : Framebuffer) : (s.setFb fb).stack = s.stack := rfl
@[simp] theorem setFb_dt (fb : Framebuffer) : (s.setFb fb).dt = s.dt := rfl
@[simp] theorem setFb_st (fb : Framebuffer) : (s.setFb fb).st = s.st := rfl
@[simp] theorem setFb_mem (fb : Framebuffer) : (s.setFb fb).mem = s.mem := rfl
@[simp] theorem setFb_fb (fb : Framebuffer) : (s.setFb fb).fb = fb := rfl
@[simp] theorem setFb_wait (fb : Framebuffer) : (s.setFb fb).wait = s.wait := rfl
@[simp] theorem setFb_kprev (fb : Framebuffer) : (s.setFb fb).kprev = s.kprev := rfl
@[simp] theorem setFb_fault (fb : Framebuffer) : (s.setFb fb).fault = s.fault := rfl
@[simp] theorem setFb_keys (fb : Framebuffer) : (s.setFb fb).keys = s.keys := rfl
@[simp] theorem setFb_rnd (fb : Framebuffer) : (s.setFb fb).rnd = s.rnd := rfl
@[simp] theorem setFb_env (fb : Framebuffer) : (s.setFb fb).env = s.env := rfl
@[simp] theorem setFb_samples (fb : Framebuffer) : (s.setFb fb).samples = s.samples := rfl

@[simp] theorem setWait_v (w : Option RegIndex) (k : Word) : (s.setWait w k).v = s.v := rfl
@[simp] theorem setWait_i (w : Option RegIndex) (k : Word) : (s.setWait w k).i = s.i := rfl
@[simp] theorem setWait_pc (w : Option RegIndex) (k : Word) : (s.setWait w k).pc = s.pc := rfl
@[simp] theorem setWait_sp (w : Option RegIndex) (k : Word) : (s.setWait w k).sp = s.sp := rfl
@[simp] theorem setWait_stack (w : Option RegIndex) (k : Word) : (s.setWait w k).stack = s.stack := rfl
@[simp] theorem setWait_dt (w : Option RegIndex) (k : Word) : (s.setWait w k).dt = s.dt := rfl
@[simp] theorem setWait_st (w : Option RegIndex) (k : Word) : (s.setWait w k).st = s.st := rfl
@[simp] theorem setWait_mem (w : Option RegIndex) (k : Word) : (s.setWait w k).mem = s.mem := rfl
@[simp] theorem setWait_fb (w : Option RegIndex) (k : Word) : (s.setWait w k).fb = s.fb := rfl
@[simp] theorem setWait_wait (w : Option RegIndex) (k : Word) : (s.setWait w k).wait = w := rfl
@[simp] theorem setWait_kprev (w : Option RegIndex) (k : Word) : (s.setWait w k).kprev = k := rfl
@[simp] theorem setWait_fault (w : Option RegIndex) (k : Word) : (s.setWait w k).fault = s.fault := rfl
@[simp] theorem setWait_keys (w : Option RegIndex) (k : Word) : (s.setWait w k).keys = s.keys := rfl
@[simp] theorem setWait_rnd (w : Option RegIndex) (k : Word) : (s.setWait w k).rnd = s.rnd := rfl
@[simp] theorem setWait_env (w : Option RegIndex) (k : Word) : (s.setWait w k).env = s.env := rfl
@[simp] theorem setWait_samples (w : Option RegIndex) (k : Word) : (s.setWait w k).samples = s.samples := rfl

@[simp] theorem sample_v (k : Word) (r : Byte) : (s.sample k r).v = s.v := rfl
@[simp] theorem sample_i (k : Word) (r : Byte) : (s.sample k r).i = s.i := rfl
@[simp] theorem sample_pc (k : Word) (r : Byte) : (s.sample k r).pc = s.pc := rfl
@[simp] theorem sample_sp (k : Word) (r : Byte) : (s.sample k r).sp = s.sp := rfl
@[simp] theorem sample_stack (k : Word) (r : Byte) : (s.sample k r).stack = s.stack := rfl
@[simp] theorem sample_dt (k : Word) (r : Byte) : (s.sample k r).dt = s.dt := rfl
@[simp] theorem sample_st (k : Word) (r : Byte) : (s.sample k r).st = s.st := rfl
@[simp] theorem sample_mem (k : Word) (r : Byte) : (s.sample k r).mem = s.mem := rfl
@[simp] theorem sample_fb (k : Word) (r : Byte) : (s.sample k r).fb = s.fb := rfl
@[simp] theorem sample_wait (k : Word) (r : Byte) : (s.sample k r).wait = s.wait := rfl
@[simp] theorem sample_kprev (k : Word) (r : Byte) : (s.sample k r).kprev = s.kprev := rfl
@[simp] theorem sample_fault (k : Word) (r : Byte) : (s.sample k r).fault = s.fault := rfl
@[simp] theorem sample_keys (k : Word) (r : Byte) : (s.sample k r).keys = k := rfl
@[simp] theorem sample_rnd (k : Word) (r : Byte) : (s.sample k r).rnd = r := rfl
@[simp] theorem sample_env (k : Word) (r : Byte) : (s.sample k r).env = s.env := rfl
@[simp] theorem sample_samples (k : Word) (r : Byte) : (s.sample k r).samples = s.samples + 1 := rfl

@[simp] theorem latch_v (f : Fault) (a : Word) : (s.latch f a).v = s.v := rfl
@[simp] theorem latch_i (f : Fault) (a : Word) : (s.latch f a).i = s.i := rfl
@[simp] theorem latch_pc (f : Fault) (a : Word) : (s.latch f a).pc = s.pc := rfl
@[simp] theorem latch_sp (f : Fault) (a : Word) : (s.latch f a).sp = s.sp := rfl
@[simp] theorem latch_stack (f : Fault) (a : Word) : (s.latch f a).stack = s.stack := rfl
@[simp] theorem latch_dt (f : Fault) (a : Word) : (s.latch f a).dt = s.dt := rfl
@[simp] theorem latch_st (f : Fault) (a : Word) : (s.latch f a).st = s.st := rfl
@[simp] theorem latch_mem (f : Fault) (a : Word) : (s.latch f a).mem = s.mem := rfl
@[simp] theorem latch_fb (f : Fault) (a : Word) : (s.latch f a).fb = s.fb := rfl
@[simp] theorem latch_wait (f : Fault) (a : Word) : (s.latch f a).wait = s.wait := rfl
@[simp] theorem latch_kprev (f : Fault) (a : Word) : (s.latch f a).kprev = s.kprev := rfl
@[simp] theorem latch_fault (f : Fault) (a : Word) : (s.latch f a).fault = some ⟨f, a⟩ := rfl
@[simp] theorem latch_keys (f : Fault) (a : Word) : (s.latch f a).keys = s.keys := rfl
@[simp] theorem latch_rnd (f : Fault) (a : Word) : (s.latch f a).rnd = s.rnd := rfl
@[simp] theorem latch_env (f : Fault) (a : Word) : (s.latch f a).env = s.env := rfl
@[simp] theorem latch_samples (f : Fault) (a : Word) : (s.latch f a).samples = s.samples := rfl

@[simp] theorem raise_v (f : Fault) : (s.raise f).v = s.v := rfl
@[simp] theorem raise_i (f : Fault) : (s.raise f).i = s.i := rfl
@[simp] theorem raise_pc (f : Fault) : (s.raise f).pc = s.pc := rfl
@[simp] theorem raise_sp (f : Fault) : (s.raise f).sp = s.sp := rfl
@[simp] theorem raise_stack (f : Fault) : (s.raise f).stack = s.stack := rfl
@[simp] theorem raise_dt (f : Fault) : (s.raise f).dt = s.dt := rfl
@[simp] theorem raise_st (f : Fault) : (s.raise f).st = s.st := rfl
@[simp] theorem raise_mem (f : Fault) : (s.raise f).mem = s.mem := rfl
@[simp] theorem raise_fb (f : Fault) : (s.raise f).fb = s.fb := rfl
@[simp] theorem raise_wait (f : Fault) : (s.raise f).wait = s.wait := rfl
@[simp] theorem raise_kprev (f : Fault) : (s.raise f).kprev = s.kprev := rfl
@[simp] theorem raise_fault (f : Fault) : (s.raise f).fault = some ⟨f, s.pc - 2⟩ := rfl
@[simp] theorem raise_keys (f : Fault) : (s.raise f).keys = s.keys := rfl
@[simp] theorem raise_rnd (f : Fault) : (s.raise f).rnd = s.rnd := rfl
@[simp] theorem raise_env (f : Fault) : (s.raise f).env = s.env := rfl
@[simp] theorem raise_samples (f : Fault) : (s.raise f).samples = s.samples := rfl

/-! The registers through `reg`. -/

@[simp] theorem reg_setReg (x y : RegIndex) (b : Byte) : (s.setReg x b).reg y = if y = x then b else s.reg y := by
  simp only [reg, setReg, Vector.getElem_set, Fin.ext_iff, eq_comm]

@[simp] theorem reg_setI (a : Word) (y : RegIndex) : (s.setI a).reg y = s.reg y := rfl
@[simp] theorem reg_setPc (a : Word) (y : RegIndex) : (s.setPc a).reg y = s.reg y := rfl
@[simp] theorem reg_advance (y : RegIndex) : (s.advance).reg y = s.reg y := rfl
@[simp] theorem reg_setDt (b : Byte) (y : RegIndex) : (s.setDt b).reg y = s.reg y := rfl
@[simp] theorem reg_setSt (b : Byte) (y : RegIndex) : (s.setSt b).reg y = s.reg y := rfl
@[simp] theorem reg_setMem (m : Memory) (y : RegIndex) : (s.setMem m).reg y = s.reg y := rfl
@[simp] theorem reg_setFb (fb : Framebuffer) (y : RegIndex) : (s.setFb fb).reg y = s.reg y := rfl
@[simp] theorem reg_setWait (w : Option RegIndex) (k : Word) (y : RegIndex) : (s.setWait w k).reg y = s.reg y := rfl
@[simp] theorem reg_sample (k : Word) (r : Byte) (y : RegIndex) : (s.sample k r).reg y = s.reg y := rfl
@[simp] theorem reg_latch (f : Fault) (a : Word) (y : RegIndex) : (s.latch f a).reg y = s.reg y := rfl
@[simp] theorem reg_raise (f : Fault) (y : RegIndex) : (s.raise f).reg y = s.reg y := rfl


end Sys2Proof.Machine.State
end

