-- ==== Sys2Proof/Laws/Ops.lean ====
section
/-! SUPPORT. One lemma per shared operation that says all it can do: the call stack, register ranges, the operand forms, the
flags, the stores through I, the countdown. -/

namespace Sys2Proof.Machine

/-! The call stack. -/

/-- All a push can do (R63). -/
theorem State.push_cases (s : State) (ret : Word) :
    (∃ (h : s.sp.val < 16), s.push ret =
      some { s with stack := s.stack.set s.sp.val ret h, sp := ⟨s.sp.val + 1, Nat.succ_lt_succ h⟩ }) ∨
    (s.sp.val = 16 ∧ s.push ret = none) := by
  by_cases h : s.sp.val < 16
  · exact .inl ⟨h, by simp [State.push, h]⟩
  · exact .inr ⟨by have := s.sp.isLt; omega, by simp [State.push, h]⟩

/-- All a pop can do (R61). -/
theorem State.pop_cases (s : State) :
    (∃ k : Fin 16, s.sp.val = k.val + 1 ∧
      s.pop = some (s.stack[k.val], { s with sp := ⟨k.val, by omega⟩ })) ∨
    (s.sp.val = 0 ∧ s.pop = none) := by
  by_cases h : 0 < s.sp.val
  · exact .inl ⟨⟨s.sp.val - 1, by have := s.sp.isLt; omega⟩, by simp; omega, by simp [State.pop, h]⟩
  · exact .inr ⟨by omega, by simp [State.pop, h]⟩

/-! Register ranges. -/

theorem storeRegs_getElem (v : Vector Byte 16) (k : Nat) (bs : List Byte) (r : Nat) (hr : r < 16) :
    (storeRegs v k bs)[r] = if k ≤ r then (bs[r - k]?).getD v[r] else v[r] := by
  induction bs generalizing v k with
  | nil => simp [storeRegs]
  | cons b bs ih =>
    rw [storeRegs, ih, Vector.getElem_setIfInBounds]
    by_cases h : k < r
    · have h1 : r - k = (r - (k + 1)) + 1 := by omega
      simp [h1, Nat.succ_le_of_lt h, Nat.le_of_lt h, Nat.ne_of_lt h]
    · by_cases h2 : r = k
      · subst h2; simp
      · have : ¬ k ≤ r := by omega
        have : ¬ k + 1 ≤ r := by omega
        have : ¬ k = r := by omega
        simp [*]

/-- A register after consecutive registers are loaded from V0 on (R92). -/
@[simp] theorem State.reg_setRegs (s : State) (bs : List Byte) (x : RegIndex) :
    (s.setRegs bs).reg x = (bs[x.val]?).getD (s.reg x) := by
  simp [State.reg, State.setRegs, storeRegs_getElem]

@[simp] theorem State.length_regsThrough (s : State) (x : RegIndex) : (s.regsThrough x).length = x.val + 1 := by
  simp [State.regsThrough]

/-- The bytes Fx55 stores (R91). -/
theorem State.getElem_regsThrough (s : State) {x k : RegIndex} (h : k ≤ x) :
    (s.regsThrough x)[k.val]? = some (s.reg k) := by
  have hk : k.val < x.val + 1 := Nat.lt_succ_of_le h
  have h16 := k.isLt
  simp only [State.regsThrough, List.getElem?_take, hk, if_true]
  simp [State.reg]

/-! A store through I. -/

/-- A store in range writes its bytes (R90, R91). -/
theorem State.storeBytes_of_le (s : State) {bs : List Byte} (h : s.i.toNat + bs.length ≤ memSize) :
    s.storeBytes bs = s.setMem (s.mem.setBytes s.i.toNat bs) := by
  simp [State.storeBytes, State.effectiveAddress, s.mem.writeRange_of_le (.inr h)]

/-- A store that leaves the memory takes OutOfRange with its lowest address out of range (R90, R91, D30). -/
theorem State.storeBytes_of_gt (s : State) {bs : List Byte} (hn : bs ≠ []) (h : memSize < s.i.toNat + bs.length) :
    s.storeBytes bs = s.raise (.outOfRange (max s.i.toNat memSize)) := by
  simp [State.storeBytes, State.effectiveAddress, s.mem.writeRange_of_gt hn h]

@[simp] theorem length_decimalDigits (b : Byte) : (decimalDigits b).length = 3 := rfl

/-! Keys. -/

/-- The lowest key of a set, or none when it is empty (R101, D14). -/
theorem lowestKey_eq_none_iff (w : Word) : lowestKey w = none ↔ ∀ k : Fin 16, w.getLsbD k.val = false := by
  have hall : ∀ k : Fin 16, k ∈ keyCodes := by decide
  simp only [lowestKey, List.find?_eq_none, Bool.not_eq_true]
  exact ⟨fun h k => h k (hall k), fun h k _ => h k⟩

theorem lowestKey_eq_some {w : Word} {k : Fin 16} (hk : w.getLsbD k.val = true)
    (hlow : ∀ l : Fin 16, l < k → w.getLsbD l.val = false) : lowestKey w = some k := by
  have hsplit : ∀ k : Fin 16, keyCodes = keyCodes.take k.val ++ k :: keyCodes.drop (k.val + 1) := by decide
  have hbelow : ∀ k l : Fin 16, l ∈ keyCodes.take k.val → l < k := by decide
  rw [lowestKey, List.find?_eq_some_iff_append]
  exact ⟨hk, keyCodes.take k.val, keyCodes.drop (k.val + 1), hsplit k, fun l hl => by
    rw [hlow l (hbelow k l hl)]; rfl⟩

theorem keyHeld_iff (keys : Word) (code : Byte) :
    keyHeld keys code = true ↔ ∃ k : Fin 16, code.toNat = k.val ∧ keys.getLsbD k.val = true := by
  simp only [keyHeld, Bool.and_eq_true, decide_eq_true_eq]
  exact ⟨fun h => ⟨⟨code.toNat, h.1⟩, rfl, h.2⟩, fun ⟨k, hk, hs⟩ => ⟨hk ▸ k.isLt, by rw [hk]; exact hs⟩⟩

@[simp] theorem keyByte_toNat (k : RegIndex) : (keyByte k).toNat = k.val := by
  simp [keyByte]; omega

/-! Arithmetic, as the numbers of R73. -/

@[simp] theorem zextAddr_toNat (nnn : Addr) : (zextAddr nnn).toNat = nnn.toNat := by
  simp [zextAddr]; omega

@[simp] theorem jumpOffset_toNat (nnn : Addr) (b : Byte) : (jumpOffset nnn b).toNat = nnn.toNat + b.toNat := by
  simp [jumpOffset]; omega

@[simp] theorem addIndex_toNat (i : Word) (b : Byte) : (addIndex i b).toNat = (i.toNat + b.toNat) % 65536 := by
  simp [addIndex]

@[simp] theorem glyphAddress_toNat (b : Byte) : (glyphAddress b).toNat = b.toNat * 5 := by
  simp [glyphAddress]; omega

@[simp] theorem addMod_toNat (a b : Byte) : (addMod a b).toNat = (a.toNat + b.toNat) % 256 := by
  simp [addMod]

@[simp] theorem subMod_toNat (a b : Byte) : (subMod a b).toNat = (a.toNat + 256 - b.toNat) % 256 := by
  simp [subMod, BitVec.toNat_ofInt]; omega

@[simp] theorem flagByte_toNat (b : Bool) : (flagByte b).toNat = if b then 1 else 0 := by
  cases b <;> rfl

theorem shiftRight_getLsbD (a : Byte) (b : Nat) : (shiftRight a).getLsbD b = a.getLsbD (b + 1) := by
  have h256 : a.toNat / 2 < 256 := by omega
  simp [shiftRight, BitVec.getLsbD, Nat.testBit_add_one, Nat.mod_eq_of_lt h256]

theorem shiftLeft_getLsbD (a : Byte) (b : Nat) (h : b < 7) : (shiftLeft a).getLsbD (b + 1) = a.getLsbD b := by
  have h256 : (a.toNat * 2 % 256).testBit (b + 1) = (a.toNat * 2).testBit (b + 1) := by
    rw [show (256 : Nat) = 2 ^ 8 from rfl, Nat.testBit_mod_two_pow]; simp; omega
  simp only [shiftLeft, BitVec.getLsbD, BitVec.toNat_ofNat, Nat.reducePow, h256, Nat.testBit_add_one]
  simp

theorem shiftLeft_getLsbD_zero (a : Byte) : (shiftLeft a).getLsbD 0 = false := by
  simp [shiftLeft, BitVec.getLsbD]

/-- The countdown of R112. -/
@[simp] theorem countDown_toNat (t : Byte) : (countDown t).toNat = t.toNat - 1 := by
  unfold countDown
  split
  · simp; omega
  · omega

end Sys2Proof.Machine
end

