-- ==== Sys2Proof/Laws/Frame.lean ====
section
/-! SUPPORT. The frame of each named update of the state, how frames compose, and what each shared step of execution can
answer. -/

namespace Sys2Proof.Machine

/-! Frames compose. -/

theorem Agree.refl (p : Part) (s : State) : Agree p s s := by cases p <;> rfl

theorem Agree.trans {p : Part} {s t u : State} (h : Agree p s t) (h' : Agree p t u) : Agree p s u := by
  cases p <;> exact Eq.trans h' h

theorem ChangesOnly.refl (allowed : Part → Prop) (s : State) : ChangesOnly allowed s s := fun p _ => Agree.refl p s

theorem ChangesOnly.mono {allowed allowed' : Part → Prop} {s t : State} (h : ChangesOnly allowed s t)
    (hp : ∀ p, allowed p → allowed' p) : ChangesOnly allowed' s t := fun p hn => h p fun ha => hn (hp p ha)

theorem ChangesOnly.trans {allowed : Part → Prop} {s t u : State} (h : ChangesOnly allowed s t)
    (h' : ChangesOnly allowed t u) : ChangesOnly allowed s u := fun p hn => (h p hn).trans (h' p hn)

/-! The frame of each update. -/

variable (s : State)

theorem changesOnly_setReg (x : RegIndex) (b : Byte) : ChangesOnly (· = .reg x) s (s.setReg x b) := by
  intro p hp
  cases p with
  | reg y => simpa [Agree] using fun h => absurd (congrArg Part.reg h) hp
  | _ => rfl

theorem changesOnly_setI (a : Word) : ChangesOnly (· = .i) s (s.setI a) := by
  intro p hp; cases p <;> first | rfl | exact absurd rfl hp

theorem changesOnly_setPc (a : Word) : ChangesOnly (· = .pc) s (s.setPc a) := by
  intro p hp; cases p <;> first | rfl | exact absurd rfl hp

theorem changesOnly_advance : ChangesOnly (· = .pc) s s.advance := changesOnly_setPc s _

theorem changesOnly_skipIf (c : Bool) : ChangesOnly (· = .pc) s (s.skipIf c) := by
  cases c
  · exact ChangesOnly.refl _ s
  · exact changesOnly_advance s

theorem changesOnly_setDt (b : Byte) : ChangesOnly (· = .dt) s (s.setDt b) := by
  intro p hp; cases p <;> first | rfl | exact absurd rfl hp

theorem changesOnly_setSt (b : Byte) : ChangesOnly (· = .st) s (s.setSt b) := by
  intro p hp; cases p <;> first | rfl | exact absurd rfl hp

theorem changesOnly_latch (f : Fault) (a : Word) : ChangesOnly (· = .fault) s (s.latch f a) := by
  intro p hp; cases p <;> first | rfl | exact absurd rfl hp

theorem changesOnly_raise (f : Fault) : ChangesOnly (· = .fault) s (s.raise f) := changesOnly_latch s f _

theorem changesOnly_setWait (w : Option RegIndex) (k : Word) :
    ChangesOnly (· ∈ [.wait, .kprev]) s (s.setWait w k) := by
  intro p hp; cases p <;> first | rfl | simp at hp

theorem changesOnly_sample (k : Word) (r : Byte) :
    ChangesOnly (· ∈ [.keys, .rnd, .samples]) s (s.sample k r) := by
  intro p hp; cases p <;> first | rfl | simp at hp

theorem changesOnly_setFb (fb : Framebuffer) : ChangesOnly (∃ c r, · = .pixel c r) s (s.setFb fb) := by
  intro p hp; cases p <;> first | rfl | exact absurd ⟨_, _, rfl⟩ hp

theorem changesOnly_setBytes (a : Nat) (bs : List Byte) :
    ChangesOnly (∃ k, k < bs.length ∧ · = .byte (a + k)) s (s.setMem (s.mem.setBytes a bs)) := by
  intro p hp
  cases p with
  | byte c =>
    have hc : (s.mem.setBytes a bs).byteAt c = s.mem.byteAt c := by
      rw [Memory.byteAt_setBytes]
      split
      · rw [List.getElem?_eq_none]; rfl
        by_contra hlt
        exact hp ⟨c - a, by omega, by congr 1; omega⟩
      · rfl
    simp [Agree, Memory.read, hc]
  | font => simp [Agree]
  | _ => rfl

theorem changesOnly_setFlagThenReg (f b : Byte) (x : RegIndex) :
    ChangesOnly (· ∈ [.reg x, .reg 15]) s (s.setFlagThenReg f x b) :=
  ((changesOnly_setReg s flagReg f).mono (by rintro p rfl; simp [flagReg])).trans
    ((changesOnly_setReg _ x b).mono (by rintro p rfl; simp))

/-! What the shared steps of execution answer. -/

/-- All a skip can do (R66). -/
theorem skipIf_pc (c : Bool) : (s.skipIf c).pc = if c then s.pc + 2 else s.pc := by cases c <;> rfl

/-- All Dxyn can do (R96). -/
theorem execDrw_cases (x y : RegIndex) (n : Nibble) :
    ((n = 0 ∨ s.i.toNat + n.toNat ≤ memSize) ∧
      ∃ drawn, Draws (RowsCover (s.reg x).toNat (s.reg y).toNat ((List.range' s.i.toNat n.toNat).map s.mem.byteAt))
          (s.fb, false) drawn ∧
        execDrw x y n s = .next ((s.setFb drawn.1).setReg flagReg (flagByte drawn.2))) ∨
    (n ≠ 0 ∧ memSize < s.i.toNat + n.toNat ∧
      execDrw x y n s = .next (s.raise (.outOfRange (max s.i.toNat memSize)))) := by
  have hn0 : n = 0 ↔ n.toNat = 0 := by rw [← BitVec.toNat_inj]; simp
  by_cases h : n = 0 ∨ s.i.toNat + n.toNat ≤ memSize
  · refine .inl ⟨h, _, drawSprite_draws _ _ _ ?_ _, ?_⟩
    · simp; omega
    · simp only [execDrw, State.effectiveAddress, Nat.add_zero, s.mem.readRange_of_le (h.imp_left hn0.mp)]
  · rw [not_or, Nat.not_le] at h
    refine .inr ⟨h.1, h.2, ?_⟩
    simp only [execDrw, State.effectiveAddress, Nat.add_zero, s.mem.readRange_of_gt (mt hn0.mpr h.1) h.2]

/-- All Fx65 can do (R92). -/
theorem execLdLoad_cases (x : RegIndex) :
    (s.i.toNat + (x.val + 1) ≤ memSize ∧
      execLdLoad x s = .next (s.setRegs ((List.range' s.i.toNat (x.val + 1)).map s.mem.byteAt))) ∨
    (memSize < s.i.toNat + (x.val + 1) ∧
      execLdLoad x s = .next (s.raise (.outOfRange (max s.i.toNat memSize)))) := by
  by_cases h : s.i.toNat + (x.val + 1) ≤ memSize
  · exact .inl ⟨h, by simp only [execLdLoad, State.effectiveAddress, Nat.add_zero, s.mem.readRange_of_le (.inr h)]⟩
  · rw [Nat.not_le] at h
    exact .inr ⟨h, by
      simp only [execLdLoad, State.effectiveAddress, Nat.add_zero, s.mem.readRange_of_gt (Nat.succ_ne_zero _) h]⟩

/-- All a store through I can do (R90, R91). -/
theorem storeBytes_cases {bs : List Byte} (hbs : bs ≠ []) :
    (s.i.toNat + bs.length ≤ memSize ∧ s.storeBytes bs = s.setMem (s.mem.setBytes s.i.toNat bs)) ∨
    (memSize < s.i.toNat + bs.length ∧ s.storeBytes bs = s.raise (.outOfRange (max s.i.toNat memSize))) := by
  by_cases h : s.i.toNat + bs.length ≤ memSize
  · exact .inl ⟨h, s.storeBytes_of_le h⟩
  · exact .inr ⟨Nat.not_le.mp h, s.storeBytes_of_gt hbs (Nat.not_le.mp h)⟩

/-- All a core step can do (R56). -/
theorem coreStep_cases (keys : Word) (rnd : Byte) :
    (s.fault ≠ none ∧ coreStep keys rnd s = .next s) ∨
    (s.fault = none ∧ ∃ x, s.wait = some x ∧ coreStep keys rnd s = .next (keyWaitPoll x (s.sample keys rnd))) ∨
    (s.fault = none ∧ s.wait = none ∧ memSize ≤ s.pc.toNat + 1 ∧
      coreStep keys rnd s =
        .next ((s.sample keys rnd).latch (.outOfRange (max s.pc.toNat memSize)) s.pc)) ∨
    (s.fault = none ∧ s.wait = none ∧ s.pc.toNat + 1 < memSize ∧
      coreStep keys rnd s =
        execute (composeWord (s.mem.byteAt s.pc.toNat) (s.mem.byteAt (s.pc.toNat + 1))) (s.sample keys rnd).advance) := by
  unfold coreStep
  cases hf : s.fault with
  | some f => exact .inl ⟨by simp, rfl⟩
  | none =>
    cases hw : s.wait with
    | some x => exact .inr (.inl ⟨rfl, x, rfl, rfl⟩)
    | none =>
      by_cases hpc : s.pc.toNat + 1 < memSize
      · refine .inr (.inr (.inr ⟨rfl, rfl, hpc, ?_⟩))
        simp only [fetchExecute, State.sample_mem, State.sample_pc, s.mem.readWord_of_lt hpc]
      · refine .inr (.inr (.inl ⟨rfl, rfl, Nat.not_lt.mp hpc, ?_⟩))
        simp only [fetchExecute, State.sample_mem, State.sample_pc, s.mem.readWord_of_ge (Nat.not_lt.mp hpc)]

/-- All a key-wait poll can do (R101). -/
theorem keyWaitPoll_cases (x : RegIndex) :
    ((∀ k : Fin 16, s.keys.getLsbD k.val = true → s.kprev.getLsbD k.val = true) ∧
      keyWaitPoll x s = s.setWait s.wait s.keys) ∨
    (∃ k : Fin 16, s.keys.getLsbD k.val = true ∧ s.kprev.getLsbD k.val = false ∧
      keyWaitPoll x s = ((s.setReg x (keyByte k)).setWait none s.kprev).advance) := by
  have hbit : ∀ k : Fin 16, (newPresses s.keys s.kprev).getLsbD k.val =
      (s.keys.getLsbD k.val && !s.kprev.getLsbD k.val) := by
    intro k; simp [newPresses]
  cases h : lowestKey (newPresses s.keys s.kprev) with
  | none =>
    refine .inl ⟨fun k hk => ?_, by simp only [keyWaitPoll, h]⟩
    have := (lowestKey_eq_none_iff _).mp h k
    rw [hbit, hk] at this
    simpa using this
  | some k =>
    have hk := List.find?_some h
    rw [hbit] at hk
    simp only [Bool.and_eq_true, Bool.not_eq_true'] at hk
    exact .inr ⟨k, hk.1, hk.2, by simp only [keyWaitPoll, h]⟩

/-- Every instruction answers a next state. -/
theorem exec_next (i : Instr) : ∃ t, exec i s = .next t := by
  cases i with
  | ret => rcases s.pop_cases with ⟨k, -, h⟩ | ⟨-, h⟩ <;> exact ⟨_, by rw [exec, execRet, h]⟩
  | call nnn => rcases s.push_cases s.pc with ⟨_, h⟩ | ⟨-, h⟩ <;> exact ⟨_, by rw [exec, execCall, h]⟩
  | drw x y n => rcases execDrw_cases s x y n with ⟨-, _, -, h⟩ | ⟨-, -, h⟩ <;> exact ⟨_, h⟩
  | ldLoad x => rcases execLdLoad_cases s x with ⟨-, h⟩ | ⟨-, h⟩ <;> exact ⟨_, h⟩
  | _ => exact ⟨_, rfl⟩

/-- Every transaction answers a next state. -/
theorem perform_next (t : Transaction) : ∃ u, perform t s = .next u := by
  cases t with
  | step keys rnd =>
    rcases coreStep_cases s keys rnd with ⟨-, h⟩ | ⟨-, x, -, h⟩ | ⟨-, -, -, h⟩ | ⟨-, -, -, h⟩
    · exact ⟨_, h⟩
    · exact ⟨_, h⟩
    · exact ⟨_, h⟩
    · simp only [perform, h, execute]
      split
      · exact exec_next _ _
      · exact ⟨_, rfl⟩
  | _ => exact ⟨_, rfl⟩

/-! What a store leaves, and what a wait is supplied. -/

/-- The byte a store in range leaves at an address is what is read there after it (R90, R91). -/
theorem read_of_byteAfterStore {bytes : List Byte} {a : Nat} {b : Byte} (hr : s.i.toNat + bytes.length ≤ memSize)
    (h : ByteAfterStore s bytes a b) : (s.mem.setBytes s.i.toNat bytes).read a = .ok b := by
  rw [Memory.read_eq_ok_iff, Memory.byteAt_setBytes]
  by_cases hc : s.i.toNat ≤ a ∧ a < s.i.toNat + bytes.length
  · have hb := h.1 (a - s.i.toNat) (by omega) (by omega)
    exact ⟨by omega, by simp [hc.1, hb]⟩
  · have hb := h.2 fun k hk he => hc ⟨by omega, by omega⟩
    rw [Memory.read_eq_ok_iff] at hb
    refine ⟨hb.1, ?_⟩
    by_cases hi : s.i.toNat ≤ a
    · simp only [hi, if_true, List.getElem?_eq_none (show bytes.length ≤ a - s.i.toNat by omega), Option.getD_none, hb.2]
    · simp only [hi, if_false, hb.2]

/-- No press in a sequence of transactions, none in what it begins with (R101). -/
theorem NoPressIn.of_append {before : Word} {ts more : List Transaction} (h : NoPressIn before (ts ++ more)) :
    NoPressIn before ts := by
  induction ts generalizing before with
  | nil => trivial
  | cons t ts ih =>
    cases t with
    | step keys rnd => exact ⟨h.1, ih h.2⟩
    | tick => exact ih h
    | load start bytes => exact ih h
    | reset => exact h.elim

end Sys2Proof.Machine
end

