-- ==== Sys2Proof/Laws/PerInstr.lean ====
section
/-! SUPPORT. The family EncodesRow: the word of an instruction fits the instruction's own row of the opcode table (R51). -/

namespace Sys2Proof.Laws.EncodesRow

/-- The encoding has every bit that the instruction's row of spec/opcode_table.json fixes. -/
def Statement (i : Instr) : Prop := i.pattern.fits (encode i) = true

/-- A row that fixes the top digit. -/
theorem fits_op {w value : Word} {op : Nibble} (h : opField w = op) (hv : op ++ 0x000#12 = value) :
    Pattern.fits ⟨0xF000, value⟩ w = true := by
  simp only [Pattern.fits, beq_iff_eq, and_opMask, h, hv]

/-- A row that fixes the top and the low digit. -/
theorem fits_opN {w value : Word} {op n : Nibble} (h : opField w = op) (hn : nField w = n)
    (hv : op ++ 0x00#8 ++ n = value) : Pattern.fits ⟨0xF00F, value⟩ w = true := by
  simp only [Pattern.fits, beq_iff_eq, and_opNMask, h, hn, hv]

/-- A row that fixes the top digit and the low byte. -/
theorem fits_opKK {w value : Word} {op : Nibble} {kk : Byte} (h : opField w = op) (hk : kkField w = kk)
    (hv : op ++ 0x0#4 ++ kk = value) : Pattern.fits ⟨0xF0FF, value⟩ w = true := by
  simp only [Pattern.fits, beq_iff_eq, and_opKKMask, h, hk, hv]

theorem cls : Statement (.cls) := rfl
theorem ret : Statement (.ret) := rfl
theorem jp (nnn : Addr) : Statement (.jp nnn) := fits_op (opField_encodeNNN _ _) rfl
theorem call (nnn : Addr) : Statement (.call nnn) := fits_op (opField_encodeNNN _ _) rfl
theorem seImm (x : RegIndex) (kk : Byte) : Statement (.seImm x kk) := fits_op (opField_encodeXKK _ _ _) rfl
theorem sneImm (x : RegIndex) (kk : Byte) : Statement (.sneImm x kk) := fits_op (opField_encodeXKK _ _ _) rfl
theorem seReg (x y : RegIndex) : Statement (.seReg x y) := fits_opN (opField_encodeXYN _ _ _ _) (nField_encodeXYN _ _ _ _) rfl
theorem ldImm (x : RegIndex) (kk : Byte) : Statement (.ldImm x kk) := fits_op (opField_encodeXKK _ _ _) rfl
theorem addImm (x : RegIndex) (kk : Byte) : Statement (.addImm x kk) := fits_op (opField_encodeXKK _ _ _) rfl
theorem ldReg (x y : RegIndex) : Statement (.ldReg x y) := fits_opN (opField_encodeXYN _ _ _ _) (nField_encodeXYN _ _ _ _) rfl
theorem orReg (x y : RegIndex) : Statement (.orReg x y) := fits_opN (opField_encodeXYN _ _ _ _) (nField_encodeXYN _ _ _ _) rfl
theorem andReg (x y : RegIndex) : Statement (.andReg x y) := fits_opN (opField_encodeXYN _ _ _ _) (nField_encodeXYN _ _ _ _) rfl
theorem xorReg (x y : RegIndex) : Statement (.xorReg x y) := fits_opN (opField_encodeXYN _ _ _ _) (nField_encodeXYN _ _ _ _) rfl
theorem addReg (x y : RegIndex) : Statement (.addReg x y) := fits_opN (opField_encodeXYN _ _ _ _) (nField_encodeXYN _ _ _ _) rfl
theorem sub (x y : RegIndex) : Statement (.sub x y) := fits_opN (opField_encodeXYN _ _ _ _) (nField_encodeXYN _ _ _ _) rfl
theorem shr (x y : RegIndex) : Statement (.shr x y) := fits_opN (opField_encodeXYN _ _ _ _) (nField_encodeXYN _ _ _ _) rfl
theorem subn (x y : RegIndex) : Statement (.subn x y) := fits_opN (opField_encodeXYN _ _ _ _) (nField_encodeXYN _ _ _ _) rfl
theorem shl (x y : RegIndex) : Statement (.shl x y) := fits_opN (opField_encodeXYN _ _ _ _) (nField_encodeXYN _ _ _ _) rfl
theorem sneReg (x y : RegIndex) : Statement (.sneReg x y) := fits_opN (opField_encodeXYN _ _ _ _) (nField_encodeXYN _ _ _ _) rfl
theorem ldI (nnn : Addr) : Statement (.ldI nnn) := fits_op (opField_encodeNNN _ _) rfl
theorem jpV0 (nnn : Addr) : Statement (.jpV0 nnn) := fits_op (opField_encodeNNN _ _) rfl
theorem rnd (x : RegIndex) (kk : Byte) : Statement (.rnd x kk) := fits_op (opField_encodeXKK _ _ _) rfl
theorem drw (x y : RegIndex) (n : Nibble) : Statement (.drw x y n) := fits_op (opField_encodeXYN _ _ _ _) rfl
theorem skp (x : RegIndex) : Statement (.skp x) := fits_opKK (opField_encodeXKK _ _ _) (kkField_encodeXKK _ _ _) rfl
theorem sknp (x : RegIndex) : Statement (.sknp x) := fits_opKK (opField_encodeXKK _ _ _) (kkField_encodeXKK _ _ _) rfl
theorem ldFromDt (x : RegIndex) : Statement (.ldFromDt x) := fits_opKK (opField_encodeXKK _ _ _) (kkField_encodeXKK _ _ _) rfl
theorem ldK (x : RegIndex) : Statement (.ldK x) := fits_opKK (opField_encodeXKK _ _ _) (kkField_encodeXKK _ _ _) rfl
theorem ldDt (x : RegIndex) : Statement (.ldDt x) := fits_opKK (opField_encodeXKK _ _ _) (kkField_encodeXKK _ _ _) rfl
theorem ldSt (x : RegIndex) : Statement (.ldSt x) := fits_opKK (opField_encodeXKK _ _ _) (kkField_encodeXKK _ _ _) rfl
theorem addI (x : RegIndex) : Statement (.addI x) := fits_opKK (opField_encodeXKK _ _ _) (kkField_encodeXKK _ _ _) rfl
theorem ldF (x : RegIndex) : Statement (.ldF x) := fits_opKK (opField_encodeXKK _ _ _) (kkField_encodeXKK _ _ _) rfl
theorem ldB (x : RegIndex) : Statement (.ldB x) := fits_opKK (opField_encodeXKK _ _ _) (kkField_encodeXKK _ _ _) rfl
theorem ldStore (x : RegIndex) : Statement (.ldStore x) := fits_opKK (opField_encodeXKK _ _ _) (kkField_encodeXKK _ _ _) rfl
theorem ldLoad (x : RegIndex) : Statement (.ldLoad x) := fits_opKK (opField_encodeXKK _ _ _) (kkField_encodeXKK _ _ _) rfl

end Sys2Proof.Laws.EncodesRow
end

