-- ==== Sys2Proof/Machine/Assembly.lean ====
section
/-! DEFINITION. The spec's own notation for an instruction, the mnemonic and its operands (R58). It is notation only: no rule
of execution reads it (D32, log 27), and it is all the optional diagnostic report of R118 would hold. -/

namespace Sys2Proof.Machine

/-- An operand as R58 writes it. -/
inductive AsmOperand
  /-- `V0`..`VF`. -/
  | v (x : RegIndex)
  /-- `kk`. -/
  | byte (kk : Byte)
  /-- `nnn`. -/
  | address (nnn : Addr)
  /-- `n`. -/
  | digit (n : Nibble)
  /-- `I`. -/
  | i
  /-- `[I]`. -/
  | atI
  /-- `DT`. -/
  | dt
  /-- `ST`. -/
  | st
  /-- `K`. -/
  | k
  /-- `F`. -/
  | f
  /-- `B`. -/
  | b
deriving DecidableEq, Repr

/-- A line of assembly. -/
structure AsmLine where
  mnemonic : String
  operands : List AsmOperand
deriving DecidableEq, Repr

/-- The instruction in the syntax of R58; SHR and SHL do not name y. -/
def assembly (ins : Instr) : AsmLine :=
  match ins with
  | .cls => ⟨"CLS", []⟩
  | .ret => ⟨"RET", []⟩
  | .jp nnn => ⟨"JP", [.address nnn]⟩
  | .call nnn => ⟨"CALL", [.address nnn]⟩
  | .seImm x kk => ⟨"SE", [.v x, .byte kk]⟩
  | .sneImm x kk => ⟨"SNE", [.v x, .byte kk]⟩
  | .seReg x y => ⟨"SE", [.v x, .v y]⟩
  | .ldImm x kk => ⟨"LD", [.v x, .byte kk]⟩
  | .addImm x kk => ⟨"ADD", [.v x, .byte kk]⟩
  | .ldReg x y => ⟨"LD", [.v x, .v y]⟩
  | .orReg x y => ⟨"OR", [.v x, .v y]⟩
  | .andReg x y => ⟨"AND", [.v x, .v y]⟩
  | .xorReg x y => ⟨"XOR", [.v x, .v y]⟩
  | .addReg x y => ⟨"ADD", [.v x, .v y]⟩
  | .sub x y => ⟨"SUB", [.v x, .v y]⟩
  | .shr x _ => ⟨"SHR", [.v x]⟩
  | .subn x y => ⟨"SUBN", [.v x, .v y]⟩
  | .shl x _ => ⟨"SHL", [.v x]⟩
  | .sneReg x y => ⟨"SNE", [.v x, .v y]⟩
  | .ldI nnn => ⟨"LD", [.i, .address nnn]⟩
  | .jpV0 nnn => ⟨"JP", [.v 0, .address nnn]⟩
  | .rnd x kk => ⟨"RND", [.v x, .byte kk]⟩
  | .drw x y n => ⟨"DRW", [.v x, .v y, .digit n]⟩
  | .skp x => ⟨"SKP", [.v x]⟩
  | .sknp x => ⟨"SKNP", [.v x]⟩
  | .ldFromDt x => ⟨"LD", [.v x, .dt]⟩
  | .ldK x => ⟨"LD", [.v x, .k]⟩
  | .ldDt x => ⟨"LD", [.dt, .v x]⟩
  | .ldSt x => ⟨"LD", [.st, .v x]⟩
  | .addI x => ⟨"ADD", [.i, .v x]⟩
  | .ldF x => ⟨"LD", [.f, .v x]⟩
  | .ldB x => ⟨"LD", [.b, .v x]⟩
  | .ldStore x => ⟨"LD", [.atI, .v x]⟩
  | .ldLoad x => ⟨"LD", [.v x, .atI]⟩

end Sys2Proof.Machine
end

