-- ==== Sys2Proof/Tests/Slice0.lean ====
section
/-! SUPPORT. Tests with results taken from the spec: its patterns (R51), its worked examples (95_test_vectors.md section 1, S<n>)
and its derived vectors (section 2, by their labels). Then a witness for each statement that has hypotheses. No test rests on
a free value: each step's key sample and random byte are given. -/

namespace Sys2Proof.Tests

open Sys2Proof Sys2Proof.Machine

/-! The check on words and the decoder. -/

/-- The words R53 and E1..E7 give as invalid fail the check, each by another fixed digit. -/
theorem test_wellFormed_refuses_op0 : wordWellFormed 0x0123 = false := by decide
theorem test_wellFormed_refuses_op5 : wordWellFormed 0x5121 = false := by decide
theorem test_wellFormed_refuses_op8 : wordWellFormed 0x8128 = false := by decide
theorem test_wellFormed_refuses_op9 : wordWellFormed 0x912F = false := by decide
theorem test_wellFormed_refuses_opE : wordWellFormed 0xE19F = false := by decide
theorem test_wellFormed_refuses_opF : wordWellFormed 0xF100 = false := by decide

theorem test_wellFormed_accepts : (wordWellFormed 0x00E0 && wordWellFormed 0x812E && wordWellFormed 0xF265) = true := by decide

/-- Words from the patterns of R51, a distinct value in every operand field. -/
theorem test_decode_control :
    decodeWord 0x00EE = some .ret ∧ decodeWord 0x1234 = some (.jp 0x234) ∧ decodeWord 0x2ABC = some (.call 0xABC) ∧
    decodeWord 0xB9FE = some (.jpV0 0x9FE) := by decide

theorem test_decode_skips :
    decodeWord 0x3342 = some (.seImm 3 0x42) ∧ decodeWord 0x4C5D = some (.sneImm 12 0x5D) ∧
    decodeWord 0x5120 = some (.seReg 1 2) ∧ decodeWord 0x9E70 = some (.sneReg 14 7) ∧
    decodeWord 0xE59E = some (.skp 5) ∧ decodeWord 0xEBA1 = some (.sknp 11) := by decide

theorem test_decode_loads :
    decodeWord 0x6A7F = some (.ldImm 10 0x7F) ∧ decodeWord 0x7120 = some (.addImm 1 0x20) ∧
    decodeWord 0x8940 = some (.ldReg 9 4) ∧ decodeWord 0xC30F = some (.rnd 3 0x0F) := by decide

theorem test_decode_alu :
    decodeWord 0x8121 = some (.orReg 1 2) ∧ decodeWord 0x8342 = some (.andReg 3 4) ∧ decodeWord 0x8563 = some (.xorReg 5 6) ∧
    decodeWord 0x8124 = some (.addReg 1 2) ∧ decodeWord 0x8785 = some (.sub 7 8) ∧ decodeWord 0x8126 = some (.shr 1 2) ∧
    decodeWord 0x8AB7 = some (.subn 10 11) ∧ decodeWord 0x8CDE = some (.shl 12 13) := by decide

theorem test_decode_index :
    decodeWord 0xA30F = some (.ldI 0x30F) ∧ decodeWord 0xF21E = some (.addI 2) ∧ decodeWord 0xFD29 = some (.ldF 13) ∧
    decodeWord 0xF133 = some (.ldB 1) ∧ decodeWord 0xFF55 = some (.ldStore 15) ∧ decodeWord 0xF265 = some (.ldLoad 2) := by
  decide

theorem test_decode_display : decodeWord 0x00E0 = some .cls ∧ decodeWord 0xD125 = some (.drw 1 2 5) := by decide

theorem test_decode_timers :
    decodeWord 0xF307 = some (.ldFromDt 3) ∧ decodeWord 0xF50A = some (.ldK 5) ∧ decodeWord 0xF415 = some (.ldDt 4) ∧
    decodeWord 0xF618 = some (.ldSt 6) := by decide

/-- Bytes, the high byte first (E11), and the stop at a lone byte and at an invalid word. -/
theorem test_decode_bytes :
    decode [0x12, 0x00, 0xAB] = .ok (.jp 0x200, [0xAB]) ∧ decode [0x12] = .error .truncated ∧
    decode [0xFF, 0xFF] = .error (.invalidOpcode 0xFFFF) := by
  refine ⟨rfl, rfl, rfl⟩

theorem test_encode : encode (.drw 1 2 5) = 0xD125 ∧ encode (.shl 1 2) = 0x812E ∧ encode (.call 0xABC) = 0x2ABC := by decide

theorem test_tableWord : decodeTableWord 16 0xD125 = some (.drw 1 2 5) := by decide

/-- R58's syntax: operands in its order, and no Vy for SHR. -/
theorem test_assembly :
    assembly (.ldStore 3) = ⟨"LD", [.atI, .v 3]⟩ ∧ assembly (.shr 1 2) = ⟨"SHR", [.v 1]⟩ := by decide

/-! One step. -/

/-- The reset state with values in registers. -/
def regs (values : List (RegIndex × Byte)) : State := values.foldl (fun s p => s.setReg p.1 p.2) State.reset

/-- The state with bytes stored in memory. -/
def poke (a : Nat) (bytes : List Byte) (s : State) : State := s.setMem (s.mem.setBytes a bytes)

/-- What a state shows after one step that runs the word, with that step's key sample and random byte. -/
def after {α : Type} (keys : Word) (rnd : Byte) (w : Nat) (s : State) (shows : State → α) : Option α :=
  match step { s.withFetchWord 16 w with env := [.step keys rnd] } with
  | .next t => some (shows t)
  | _ => none

/-- What a state shows after one transaction. -/
def afterTransaction {α : Type} (tr : Transaction) (s : State) (shows : State → α) : Option α :=
  match step { s with env := [tr] } with
  | .next t => some (shows t)
  | _ => none

/-- T1, T7 and T8: no wrap at 12 bits. -/
theorem test_jp : after 0 0 0x1234 State.reset (·.pc) = some 0x234 := by decide
theorem test_jpV0 : after 0 0 0xBFFF (regs [(0, 0xFF)]) (·.pc) = some 0x10FE := by decide

/-- T3. -/
theorem test_call : after 0 0 0x2300 State.reset (fun t => (t.pc, t.sp.val, t.stack[0])) = some (0x300, 1, 0x202) := by decide

/-- T4. -/
theorem test_call_overflow :
    after 0 0 0x2300 { State.reset with sp := 16 } (fun t => (t.pc, t.sp.val, t.fault)) =
      some (0x202, 16, some ⟨.stackOverflow, 0x200⟩) := by decide

/-- T6: the entry keeps its value. -/
theorem test_ret :
    after 0 0 0x00EE { State.reset with sp := 2, stack := State.reset.stack.set 1 0x456 }
      (fun t => (t.pc, t.sp.val, t.stack[1])) = some (0x456, 1, 0x456) := by decide

/-- T5. -/
theorem test_ret_underflow :
    after 0 0 0x00EE State.reset (fun t => (t.pc, t.sp.val, t.fault)) = some (0x202, 0, some ⟨.stackUnderflow, 0x200⟩) := by
  decide

/-- K1, K4, K6, K8, K10 to K14. -/
theorem test_seImm : after 0 0 0x3342 (regs [(3, 0x42)]) (·.pc) = some 0x204 := by decide
theorem test_sneImm : after 0 0 0x4342 (regs [(3, 0x41)]) (·.pc) = some 0x204 := by decide
theorem test_seReg : after 0 0 0x5120 (regs [(1, 7), (2, 7)]) (·.pc) = some 0x204 := by decide
theorem test_sneReg : after 0 0 0x9120 (regs [(1, 7), (2, 8)]) (·.pc) = some 0x204 := by decide
theorem test_skp : after 0x0400 0 0xE59E (regs [(5, 0xA)]) (·.pc) = some 0x204 := by decide
theorem test_skp_no_such_key : after 0xFFFF 0 0xE19E (regs [(1, 0x10)]) (·.pc) = some 0x202 := by decide
theorem test_sknp : after 0 0 0xE5A1 (regs [(5, 0xA)]) (·.pc) = some 0x204 := by decide
theorem test_sknp_no_such_key : after 0xFFFF 0 0xE1A1 (regs [(1, 0x10)]) (·.pc) = some 0x204 := by decide

/-- S1. -/
theorem test_ldImm : after 0 0 0x6A7F State.reset (·.reg 10) = some 0x7F := by decide
theorem test_addImm : after 0 0 0x7101 (regs [(1, 0xFF), (15, 5)]) (fun t => (t.reg 1, t.reg 15)) = some (0, 5) := by decide

/-- A5 to A8: VF is not written. -/
theorem test_ldReg : after 0 0 0x8120 (regs [(2, 0x33)]) (·.reg 1) = some 0x33 := by decide
theorem test_orReg :
    after 0 0 0x8121 (regs [(1, 0x0F), (2, 0xF0), (15, 9)]) (fun t => (t.reg 1, t.reg 15)) = some (0xFF, 9) := by decide
theorem test_andReg : after 0 0 0x8122 (regs [(1, 0x3C), (2, 0x0F)]) (·.reg 1) = some 0x0C := by decide
theorem test_xorReg : after 0 0 0x8123 (regs [(1, 0x3C), (2, 0x0F)]) (·.reg 1) = some 0x33 := by decide

/-- S2 and A12: Vy = VF is read before the flag is written. -/
theorem test_addReg : after 0 0 0x8124 (regs [(1, 0xFF), (2, 1)]) (fun t => (t.reg 1, t.reg 15)) = some (0, 1) := by decide
theorem test_addReg_reads_vf : after 0 0 0x81F4 (regs [(1, 0x10), (15, 5)]) (fun t => (t.reg 1, t.reg 15)) = some (0x15, 0) := by
  decide

/-- S3 and A15: Vx = VF holds the result. -/
theorem test_sub : after 0 0 0x8125 (regs [(1, 5), (2, 0xA)]) (fun t => (t.reg 1, t.reg 15)) = some (0xFB, 0) := by decide
theorem test_sub_into_vf : after 0 0 0x8F15 (regs [(1, 5), (15, 3)]) (·.reg 15) = some 0xFE := by decide

/-- S4 and A17. -/
theorem test_shr : after 0 0 0x8126 (regs [(1, 3), (2, 0xFF)]) (fun t => (t.reg 1, t.reg 15)) = some (1, 1) := by decide
theorem test_shr_into_vf : after 0 0 0x8F06 (regs [(15, 3)]) (·.reg 15) = some 1 := by decide

/-- A20, A14, A21 and A22. -/
theorem test_subn : after 0 0 0x8127 (regs [(1, 5), (2, 0xA)]) (fun t => (t.reg 1, t.reg 15)) = some (5, 1) := by decide
theorem test_sub_equal : after 0 0 0x8125 (regs [(1, 0xA), (2, 0xA)]) (fun t => (t.reg 1, t.reg 15)) = some (0, 1) := by decide
theorem test_shl : after 0 0 0x812E (regs [(1, 0x81)]) (fun t => (t.reg 1, t.reg 15)) = some (2, 1) := by decide
theorem test_shl_no_carry : after 0 0 0x812E (regs [(1, 0x7F)]) (fun t => (t.reg 1, t.reg 15)) = some (0xFE, 0) := by decide

/-- A24. -/
theorem test_rnd : after 0 0xB7 0xC30F State.reset (·.reg 3) = some 7 := by decide

/-- M1, M3, M4 and M7. -/
theorem test_ldI : after 0 0 0xA300 State.reset (·.i) = some 0x300 := by decide
theorem test_addI : after 0 0 0xF11E ((regs [(1, 1)]).setI 0x0FFF) (·.i) = some 0x1000 := by decide
theorem test_addI_wraps : after 0 0 0xF11E ((regs [(1, 1)]).setI 0xFFFF) (fun t => (t.i, t.reg 15)) = some (0, 0) := by decide
theorem test_ldF : after 0 0 0xF129 (regs [(1, 0xFF)]) (·.i) = some 0x4FB := by decide

/-- M8. -/
theorem test_ldB :
    after 0 0 0xF133 ((regs [(1, 0xFF)]).setI 0x300) (fun t => (t.mem.byteAt 0x300, t.mem.byteAt 0x301, t.mem.byteAt 0x302)) =
      some (2, 5, 5) := by decide

/-- M11: no byte in range is written. -/
theorem test_ldB_out_of_range :
    after 0 0 0xF133 ((regs [(1, 0x7B)]).setI 0xFFE) (fun t => (t.fault, t.pc, t.mem.byteAt 0xFFE)) =
      some (some ⟨.outOfRange 0x1000, 0x200⟩, 0x202, 0) := by decide

/-- M12 and M17. -/
theorem test_ldStore :
    after 0 0 0xF155 ((regs [(0, 1), (1, 2), (2, 3)]).setI 0x300)
      (fun t => (t.mem.byteAt 0x300, t.mem.byteAt 0x301, t.mem.byteAt 0x302, t.i)) = some (1, 2, 0, 0x300) := by decide
theorem test_ldStore_out_of_range :
    after 0 0 0xF155 (State.reset.setI 0xFFFF) (·.fault) = some (some ⟨.outOfRange 0xFFFF, 0x200⟩) := by decide

/-- M15 and M16. -/
theorem test_ldLoad :
    after 0 0 0xF265 (poke 0x300 [1, 2, 3, 4] (State.reset.setI 0x300)) (fun t => (t.reg 0, t.reg 1, t.reg 2, t.reg 3)) =
      some (1, 2, 3, 0) := by decide
theorem test_ldLoad_out_of_range :
    after 0 0 0xF265 ((regs [(0, 9)]).setI 0xFFF) (fun t => (t.fault, t.reg 0)) =
      some (some ⟨.outOfRange 0x1000, 0x200⟩, 9) := by decide

/-- D1. -/
theorem test_cls :
    after 0 0 0x00E0 ((regs [(15, 7)]).setFb (Vector.replicate 32 1)) (fun t => (t.fb, t.reg 15)) =
      some (Vector.replicate 32 0, 7) := by decide

/-- S9: eight pixels from (62, 31) wrap to column 5. -/
theorem test_drw_wraps :
    after 0 0 0xD011 (poke 0x300 [0xFF] ((regs [(0, 62), (1, 31), (15, 9)]).setI 0x300)) (fun t => (t.fb, t.reg 15)) =
      some ((Vector.replicate 32 0).set 31 0xC00000000000003F, 0) := by decide

/-- D8. -/
theorem test_drw_collides :
    after 0 0 0xD011 (poke 0x300 [0xC0] ((State.reset.setFb ((Vector.replicate 32 0).set 0 1)).setI 0x300))
      (fun t => (t.fb.isSet 0 0, t.fb.isSet 1 0, t.reg 15)) = some (false, true, 1) := by decide

/-- W1 to W3. -/
theorem test_ldFromDt : after 0 0 0xF307 (State.reset.setDt 0x3C) (·.reg 3) = some 0x3C := by decide
theorem test_ldDt : after 0 0 0xF315 (regs [(3, 0x3C)]) (·.dt) = some 0x3C := by decide
theorem test_ldSt : after 0 0 0xF318 (regs [(3, 5)]) (fun t => (t.st, soundActive t)) = some (5, true) := by decide

/-- W7 and W11: a key held on entry is the reference. -/
theorem test_ldK : after 1 0 0xF50A State.reset (fun t => (t.wait, t.kprev, t.pc)) = some (some 5, 1, 0x200) := by decide

/-- W9 and W11, the polls. -/
theorem test_poll :
    afterTransaction (.step 0x0108 0) (State.reset.setWait (some 5) 0) (fun t => (t.reg 5, t.wait, t.pc)) =
      some (3, none, 0x202) := by decide
theorem test_poll_no_edge :
    afterTransaction (.step 1 0) (State.reset.setWait (some 5) 1) (fun t => (t.reg 5, t.wait, t.pc)) =
      some (0, some 5, 0x200) := by decide

/-- W4 and W6: a tick, also over a latched fault. -/
theorem test_tick :
    afterTransaction .tick (((State.reset.setDt 2).setSt 1).latch .stackUnderflow 0) (fun t => (t.dt, t.st, soundActive t)) =
      some (1, 0, false) := by decide

/-- E1. -/
theorem test_invalid :
    after 0 0 0x0123 State.reset (fun t => (t.fault, t.pc)) = some (some ⟨.invalidOpcode 0x0123, 0x200⟩, 0x202) := by decide

/-- E8 and E10. -/
theorem test_fetch_out_of_range :
    afterTransaction (.step 0 0) (State.reset.setPc 0xFFF) (fun t => (t.fault, t.pc)) =
      some (some ⟨.outOfRange 0x1000, 0xFFF⟩, 0xFFF) := by decide
theorem test_step_over_fault :
    afterTransaction (.step 1 1) (State.reset.latch .stackOverflow 0x200) (fun t => (t.fault, t.pc, t.samples)) =
      some (some ⟨.stackOverflow, 0x200⟩, 0x200, 0) := by decide

/-- E14 and a load that fits (R42). -/
theorem test_load_out_of_range : hostLoad 0xFFF [1, 2] State.reset = (.outOfRange, State.reset) := by decide
theorem test_load :
    afterTransaction (.load 0xFFE [1, 2]) State.reset (fun t => (t.mem.byteAt 0xFFE, t.mem.byteAt 0xFFF)) = some (1, 2) := by
  decide

/-- R120. -/
theorem test_reset :
    afterTransaction .reset (poke 0x300 [7] ((regs [(1, 1)]).setPc 0x400)) (fun t => decide (t = State.reset)) = some true := by
  decide

/-- R41: the glyph of 0xA begins at 0x032. -/
theorem test_font : State.reset.mem.read 0x032 = .ok 0xF0 ∧ State.reset.mem.read 0x036 = .ok 0x90 := by
  exact ⟨rfl, rfl⟩

/-- The codes of R102. -/
theorem test_codes :
    (Fault.outOfRange 0).code = 1 ∧ Fault.stackOverflow.code = 2 ∧ Fault.stackUnderflow.code = 3 ∧
    (Fault.invalidOpcode 0).code = 4 := by decide

/-! Witnesses: for each statement with hypotheses, states and operands that meet them together; for a statement of several
clauses, one for each, at the ends of its range. -/

/-- The state about to run the word at PC. -/
def ready (w : Word) (s : State) : State := placeWord s w

theorem witness_encodeOfDecode : decodeWord 0x8126 = some (.shr 1 2) := by decide

/-- The instruction at the last address a word fits, with a step queued and with nothing queued. -/
theorem witness_stepRunsTheDecodedInstruction :
    let s := ready 0x00EE (State.reset.setPc 0xFFE)
    s.fault = none ∧ s.wait = none ∧ s.mem.read s.pc.toNat = .ok 0x00 ∧ s.mem.read (s.pc.toNat + 1) = .ok 0xEE ∧
      decode [0x00, 0xEE] = .ok (.ret, []) ∧ s.env = [] ∧
      ({ s with env := [.step 1 2, .tick] } : State).env = .step 1 2 :: [.tick] :=
  ⟨rfl, rfl, rfl, rfl, rfl, rfl, rfl⟩

theorem witness_runPerformsTheQueuedTransactions :
    ({ State.reset with env := [.tick, .step 1 2, .reset] } : State).env = [.tick, .step 1 2, .reset] := rfl

/-- SP at 0, 15 and 16: the ends of the call stack. -/
theorem witness_call :
    State.reset.sp.val = (0 : Fin 16).val ∧ ({ State.reset with sp := 15 } : State).sp.val = (15 : Fin 16).val ∧
      ({ State.reset with sp := 16 } : State).sp.val = 16 := ⟨rfl, rfl, rfl⟩

theorem witness_return :
    ({ State.reset with sp := 16 } : State).sp.val = (15 : Fin 16).val + 1 ∧
      ({ State.reset with sp := 1 } : State).sp.val = (0 : Fin 16).val + 1 ∧ State.reset.sp.val = 0 := ⟨rfl, rfl, rfl⟩

/-- The call's own next state, and one in which the subroutine has changed other registers, meet the second hypotheses. -/
theorem witness_returnAfterCall :
    ∃ t, exec (.call 0x300) State.reset = .next t ∧ State.reset.sp.val = (0 : Fin 16).val ∧
      (t.setReg 3 7).sp = t.sp ∧ (t.setReg 3 7).stack[(0 : Fin 16).val] = t.stack[(0 : Fin 16).val] :=
  ⟨_, rfl, rfl, rfl, rfl⟩

theorem witness_seventeenthCall : (List.replicate 16 (0x200 : Addr)).length = 16 ∧ State.reset.sp.val = 0 := ⟨rfl, rfl⟩

/-- The key F held; the key F not held; a code with no key, with every key held. -/
theorem witness_skipsOnAKey :
    (∃ k : Fin 16, ((regs [(1, 15)]).reg 1).toNat = k.val ∧ ((regs [(1, 15)]).sample 0x8000 0).keys.getLsbD k.val = true) ∧
    (¬ ∃ k : Fin 16, ((regs [(1, 15)]).reg 1).toNat = k.val ∧ ((regs [(1, 15)]).sample 0x7FFF 0).keys.getLsbD k.val = true) ∧
    (¬ ∃ k : Fin 16, ((regs [(1, 16)]).reg 1).toNat = k.val ∧ ((regs [(1, 16)]).sample 0xFFFF 0).keys.getLsbD k.val = true) := by
  decide

/-- The carry's two sides (255 and 256), the borrow's (equal, and one less), and a destination that is not VF. -/
theorem witness_flags :
    (1 : RegIndex) ≠ 15 ∧ (14 : RegIndex) ≠ 15 ∧
    ¬ ((regs [(1, 0xFF), (2, 0)]).reg 1).toNat + ((regs [(1, 0xFF), (2, 0)]).reg 2).toNat > 255 ∧
    ((regs [(1, 0xFF), (2, 1)]).reg 1).toNat + ((regs [(1, 0xFF), (2, 1)]).reg 2).toNat > 255 ∧
    ((regs [(1, 5), (2, 5)]).reg 1).toNat ≥ ((regs [(1, 5), (2, 5)]).reg 2).toNat ∧
    ¬ ((regs [(1, 4), (2, 5)]).reg 1).toNat ≥ ((regs [(1, 4), (2, 5)]).reg 2).toNat := by decide

/-- An addition that changes VF. -/
theorem witness_vfIsWritten :
    ∃ t, exec (.addReg 1 2) (regs [(1, 0xFF), (2, 1)]) = .next t ∧ t.reg 15 ≠ (regs [(1, 0xFF), (2, 1)]).reg 15 :=
  ⟨_, rfl, by decide⟩

/-- The highest I at which Fx33, FF55 and FF65 are in range. -/
theorem witness_transfersInRange :
    (State.reset.setI 0xFFD).i.toNat + 2 < 4096 ∧ (State.reset.setI 0xFF0).i.toNat + (15 : RegIndex).val < 4096 ∧
      (State.reset.setI 0xFFF).i.toNat + (0 : RegIndex).val < 4096 := by decide

/-- One address higher, and the highest I: each clause of the transfers out of range. -/
theorem witness_transfersOutOfRange :
    ((2 : Nibble) ≠ 0 ∧ (State.reset.setI 0xFFF).i.toNat + (2 : Nibble).toNat > 4096) ∧
    (State.reset.setI 0xFFE).i.toNat + 3 > 4096 ∧ (State.reset.setI 0xFF1).i.toNat + (15 : RegIndex).val + 1 > 4096 ∧
    (State.reset.setI 0xFFFF).i.toNat + (0 : RegIndex).val + 1 > 4096 := by decide

/-- Another machine with the same memory and I as after the store, its registers different. -/
theorem witness_loadAfterStore :
    ∃ t, exec (.ldStore 15) (State.reset.setI 0xFF0) = .next t ∧
      (State.reset.setI 0xFF0).i.toNat + (15 : RegIndex).val < 4096 ∧
      (t.setReg 4 9).mem = t.mem ∧ (t.setReg 4 9).i = (State.reset.setI 0xFF0).i :=
  ⟨_, rfl, by decide, rfl, rfl⟩

/-- F155 stores a jump over the whole next instruction, at the last place where one fits. -/
theorem witness_storedInstruction_whole :
    let s := ((regs [(0, 0x12), (1, 0x34)]).setI 0xFFE).setPc 0xFFE
    let bytes : List Byte := [0x12, 0x34]
    s.i.toNat + bytes.length ≤ 4096 ∧ s.fault = none ∧ s.wait = none ∧ ByteAfterStore s bytes s.pc.toNat 0x12 ∧
      ByteAfterStore s bytes (s.pc.toNat + 1) 0x34 ∧ decode [0x12, 0x34] = .ok (.jp 0x234, []) ∧
      bytes.length = (1 : RegIndex).val + 1 ∧ ∀ k : RegIndex, k ≤ 1 → bytes[k.val]? = some (s.reg k) :=
  ⟨by decide, rfl, rfl, ⟨by decide, fun h => absurd rfl (h 0 (by decide))⟩, ⟨by decide, fun h => absurd rfl (h 1 (by decide))⟩,
    rfl, rfl, by decide⟩

/-- F055 stores over its low byte only, at PC + 1: the jump 0x1200 becomes 0x1234. -/
theorem witness_storedInstruction_low :
    let s := poke 0x300 [0x12] (((regs [(0, 0x34)]).setI 0x301).setPc 0x300)
    let bytes : List Byte := [0x34]
    s.i.toNat + bytes.length ≤ 4096 ∧ s.fault = none ∧ s.wait = none ∧ ByteAfterStore s bytes s.pc.toNat 0x12 ∧
      ByteAfterStore s bytes (s.pc.toNat + 1) 0x34 ∧ decode [0x12, 0x34] = .ok (.jp 0x234, []) ∧
      bytes.length = (0 : RegIndex).val + 1 ∧ ∀ k : RegIndex, k ≤ 0 → bytes[k.val]? = some (s.reg k) :=
  ⟨by decide, rfl, rfl, ⟨by decide, fun _ => rfl⟩, ⟨by decide, fun h => absurd rfl (h 0 (by decide))⟩, rfl, rfl, by decide⟩

/-- F133 stores the digits 1, 2, 0 of a register, the last over the high byte at PC only: 0x12E0 becomes 0x00E0. -/
theorem witness_storedInstruction_high :
    let s := poke 0x300 [0x12, 0xE0] (((regs [(1, 120)]).setI 0x2FE).setPc 0x300)
    let bytes : List Byte := [1, 2, 0]
    s.i.toNat + bytes.length ≤ 4096 ∧ s.fault = none ∧ s.wait = none ∧ ByteAfterStore s bytes s.pc.toNat 0x00 ∧
      ByteAfterStore s bytes (s.pc.toNat + 1) 0xE0 ∧ decode [0x00, 0xE0] = .ok (.cls, []) ∧
      (s.reg 1).toNat = 100 * (1 : Byte).toNat + 10 * (2 : Byte).toNat + (0 : Byte).toNat :=
  ⟨by decide, rfl, rfl, ⟨by decide, fun h => absurd rfl (h 2 (by decide))⟩, ⟨by decide, fun _ => rfl⟩, rfl, rfl⟩

/-- One memory reached in two ways, and a step that writes memory. -/
theorem witness_memory :
    (let m := State.reset.mem.setByte 0x300 7
     let m' := (State.reset.mem.setByte 0x300 8).setByte 0x300 7
     m.wf = true ∧ m'.wf = true ∧ m.font = m'.font ∧ ∀ a, m.read a = m'.read a) ∧
    ∃ t, (ready 0xF133 State.reset).mem.wf = true ∧ step (ready 0xF133 State.reset) = .next t := by
  refine ⟨⟨by decide, by decide, rfl, fun a => ?_⟩, _, by decide, rfl⟩
  have : State.reset.mem.setByte 0x300 7 = (State.reset.mem.setByte 0x300 8).setByte 0x300 7 := by decide
  rw [this]

/-- E12 and E13: the largest image that fits at 0x200, and one byte more. -/
theorem witness_load :
    (0x200 : Word).toNat + (List.replicate 3584 (0 : Byte)).length ≤ 4096 ∧
      (0x200 : Word).toNat + (List.replicate 3585 (0 : Byte)).length > 4096 := by
  rw [List.length_replicate, List.length_replicate]
  decide

/-- A sprite with no rows at an I out of range, and one whose last row is at 0xFFF. -/
theorem witness_draw :
    ((0 : Nibble) = 0 ∨ (State.reset.setI 0xFFFF).i.toNat + (0 : Nibble).toNat ≤ 4096) ∧
    ((15 : Nibble) = 0 ∨ (State.reset.setI 0xFF1).i.toNat + (15 : Nibble).toNat ≤ 4096) ∧
    SpriteCovers (poke 0xFFF [0x01] (State.reset.setI 0xFF1)) 0 1 15 7 14 ∧
    ¬ SpriteCovers (poke 0xFFF [0x01] (State.reset.setI 0xFF1)) 0 1 0 7 14 :=
  ⟨by decide, by decide, ⟨14, 7, 1, by decide, by decide, rfl, rfl, rfl, rfl⟩, fun ⟨_, _, _, h, _⟩ => Nat.not_lt_zero _ h⟩

/-- D3's sprite on a clear screen: a row with a bit set, and coordinates in neither case in VF. -/
theorem witness_drawTwice :
    let s := poke 0x300 [0xC0] ((regs [(0, 70), (1, 40)]).setI 0x300)
    (0 : RegIndex) ≠ 15 ∧ (1 : RegIndex) ≠ 15 ∧ ((1 : Nibble) = 0 ∨ s.i.toNat + (1 : Nibble).toNat ≤ 4096) ∧
      (∃ k b, k < (1 : Nibble).toNat ∧ s.mem.read (s.i.toNat + k) = .ok b ∧ b ≠ 0) ∧
      ∀ (c : Fin 64) (r : Fin 32), s.fb.isSet c.val r.val = false :=
  ⟨by decide, by decide, by decide, ⟨0, 0xC0, by decide, rfl, by decide⟩, fun c r => Framebuffer.isSet_clear c.val r.val⟩

/-- A timer at 1 and a timer at 0. -/
theorem witness_tick :
    (State.reset.setDt 1).dt.toNat > 0 ∧ (State.reset.setDt 1).st.toNat = 0 ∧ (State.reset.setSt 255).st.toNat > 0 ∧
      (State.reset.setSt 255).dt.toNat = 0 := by decide

/-- A wait whose poll sees no press (the same keys held), one that sees the highest key, and one that sees the lowest of all. -/
theorem witness_poll :
    (∀ before : Word, (State.reset.setWait (some 5) before).fault = none ∧
      (State.reset.setWait (some 5) before).wait = some 5 ∧ (State.reset.setWait (some 5) before).kprev = before) ∧
    NoPress 0x8001 0x8001 ∧
    (((0x8001 : Word).getLsbD (15 : Fin 16).val = true ∧ (0x0001 : Word).getLsbD (15 : Fin 16).val = false ∧
      ∀ l : Fin 16, l < 15 → (0x8001 : Word).getLsbD l.val = true → (0x0001 : Word).getLsbD l.val = true)) ∧
    ((0xFFFF : Word).getLsbD (0 : Fin 16).val = true ∧ (0x0000 : Word).getLsbD (0 : Fin 16).val = false ∧
      ∀ l : Fin 16, l < 0 → (0xFFFF : Word).getLsbD l.val = true → (0x0000 : Word).getLsbD l.val = true) :=
  ⟨fun _ => ⟨rfl, rfl, rfl⟩, fun _ h => h, by decide, by decide⟩

/-- A wait through a held key, its release, a tick and a load. -/
theorem witness_keyWaitLasts :
    (State.reset.setWait (some 5) 0x0001).fault = none ∧ (State.reset.setWait (some 5) 0x0001).wait = some 5 ∧
      NoPressIn (State.reset.setWait (some 5) 0x0001).kprev [.step 0x0001 0, .tick, .step 0 0, .load 0x300 [1], .step 0 0] :=
  ⟨rfl, rfl, fun _ h => h, fun _ h => by simp at h, fun _ h => h, trivial⟩

/-- A wait, with a tick and a release queued and steps without a key and ticks for ever after; and one that is not WAITING,
since the queue holds the press that ends it. -/
theorem witness_waiting :
    (let s : State := { State.reset.setWait (some 5) 0x0001 with env := [.tick, .step 0x0001 0, .step 0 0] }
     s.fault = none ∧ Waiting (fun n => if n % 2 = 0 then .step 0 0 else .tick) s) ∧
    ¬ Waiting (fun _ => .tick) { State.reset.setWait (some 5) 0x0001 with env := [.step 0 0, .step 0x0001 0] } := by
  refine ⟨⟨rfl, by decide, fun n => ⟨fun _ h => h, fun _ h => by simp at h, ?_⟩⟩, fun h => ?_⟩
  · induction List.range n with
    | nil => trivial
    | cons k ks ih =>
      rw [List.map_cons]
      split
      · exact ⟨fun _ h => h, ih⟩
      · exact ih
  · have := (h.2 0).2.1 0 (by decide)
    exact absurd this (by decide)

/-- E8, E9 and the highest PC. -/
theorem witness_fetchOutOfRange :
    (State.reset.setPc 0xFFF).fault = none ∧ (State.reset.setPc 0xFFF).wait = none ∧
      (State.reset.setPc 0xFFF).pc.toNat ≥ 0xFFF ∧ (State.reset.setPc 0x1000).pc.toNat ≥ 0xFFF ∧
      (State.reset.setPc 0xFFFF).pc.toNat ≥ 0xFFF := by decide

/-- E7 at the last address a word fits. -/
theorem witness_invalidWord :
    let s := ready 0xFFFF (State.reset.setPc 0xFFE)
    s.fault = none ∧ s.wait = none ∧ s.HasWord s.pc.toNat 0xFFFF ∧ decodeWord 0xFFFF = none :=
  ⟨rfl, rfl, ⟨0xFF, 0xFF, rfl, rfl, rfl⟩, rfl⟩

/-- An instruction of each kind of fault that an instruction can raise. -/
theorem witness_faults :
    (State.reset.fault = none ∧ ({ State.reset with sp := 16 } : State).fault = none ∧
      (State.reset.setI 0xFFE).fault = none ∧ (State.reset.setI 0xFFFF).fault = none) ∧
    (∃ t, exec .ret State.reset = .next t ∧ t.fault = some ⟨.stackUnderflow, 0x1FE⟩) ∧
    (∃ t, exec (.call 0) { State.reset with sp := 16 } = .next t ∧ t.fault = some ⟨.stackOverflow, 0x1FE⟩) ∧
    (∃ t, exec (.ldB 0) (State.reset.setI 0xFFE) = .next t ∧ t.fault = some ⟨.outOfRange 0x1000, 0x1FE⟩) ∧
    ∃ t, exec (.drw 0 0 1) (State.reset.setI 0xFFFF) = .next t ∧ t.fault = some ⟨.outOfRange 0xFFFF, 0x1FE⟩ :=
  ⟨⟨rfl, rfl, rfl, rfl⟩, ⟨_, rfl, rfl⟩, ⟨_, rfl, rfl⟩, ⟨_, rfl, rfl⟩, ⟨_, rfl, rfl⟩⟩

theorem witness_latchedFault :
    (State.reset.latch (.invalidOpcode 0x0123) 0x200).fault = some ⟨.invalidOpcode 0x0123, 0x200⟩ ∧
      Transaction.reset ∉ [Transaction.step 1 2, .tick, .load 0x200 [0]] := by decide

/-- For each kind of state, an instruction that changes it. -/
theorem witness_writers :
    (∃ t, exec (.addI 1) (regs [(1, 1)]) = .next t ∧ t.i ≠ (regs [(1, 1)]).i) ∧
    (∃ t, exec (.call 0) State.reset = .next t ∧ t.sp ≠ State.reset.sp ∧ t.stack ≠ State.reset.stack) ∧
    (∃ t, exec (.ldB 1) ((regs [(1, 1)]).setI 0x300) = .next t ∧ t.mem ≠ ((regs [(1, 1)]).setI 0x300).mem) ∧
    (∃ t, exec (.drw 1 1 1) State.reset = .next t ∧ t.fb ≠ State.reset.fb) ∧
    (∃ t, exec (.ldDt 1) (regs [(1, 1)]) = .next t ∧ t.dt ≠ (regs [(1, 1)]).dt) ∧
    (∃ t, exec (.ldSt 1) (regs [(1, 1)]) = .next t ∧ t.st ≠ (regs [(1, 1)]).st) ∧
    ∃ t, exec (.ldK 1) State.reset = .next t ∧ t.wait ≠ State.reset.wait :=
  ⟨⟨_, rfl, by decide⟩, ⟨_, rfl, by decide, by decide⟩, ⟨_, rfl, by decide⟩, ⟨_, rfl, by decide⟩, ⟨_, rfl, by decide⟩,
    ⟨_, rfl, by decide⟩, ⟨_, rfl, by decide⟩⟩

/-- Cxkk reads no key, and SKP reads no random byte. -/
theorem witness_inputs :
    (∃ t, exec (.rnd 1 0xFF) State.reset = .next t) ∧ (∀ x, Instr.rnd 1 0xFF ≠ .skp x ∧ Instr.rnd 1 0xFF ≠ .sknp x ∧
      Instr.rnd 1 0xFF ≠ .ldK x) ∧
    (∃ t, exec (.skp 1) State.reset = .next t) ∧ ∀ x kk, Instr.skp 1 ≠ .rnd x kk :=
  ⟨⟨_, rfl⟩, by simp, ⟨_, rfl⟩, by simp⟩

theorem witness_resetFont : (poke 0x300 [7] (regs [(1, 1)])).mem.font = State.reset.mem.font := by decide

/-- Parked at the last address where an instruction fits, with ticks and steps to come. -/
theorem witness_parked :
    Parked 0xFFE (ready 0x1FFE (State.reset.setPc 0xFFE)) ∧
      ∀ t ∈ [Transaction.tick, .step 1 2], t = .tick ∨ ∃ keys rnd, t = .step keys rnd :=
  ⟨⟨rfl, rfl, rfl, by decide, rfl, rfl⟩, by simp⟩

/-- A state beyond reset that meets the invariant (a live call-stack entry, memory written, a key wait pending), and a step
from it. -/
theorem witness_invariant :
    let s := (poke 0x300 [7] { State.reset with sp := 1, stack := State.reset.stack.set 0 0x1000 }).setWait (some 3) 0
    Inv s ∧ ∃ t, step s = .next t := by
  refine ⟨⟨by decide, by decide, fun k hk => ?_, fun _ => ⟨by decide, rfl⟩, fun f hf => by cases hf⟩, _, rfl⟩
  have : k = 0 := Fin.ext (Nat.lt_one_iff.mp hk)
  subst this
  decide

/-- A reachable state that is not at reset. -/
theorem witness_reachable : ∃ t, Reachable t ∧ t.fault = some ⟨.stackUnderflow, 0x200⟩ :=
  ⟨_, .next _ _ (.next _ _ (.start defaultFont [.load 0x200 [0x00, 0xEE], .step 0 0]) rfl) rfl, rfl⟩

end Sys2Proof.Tests
end

section
/-! SUPPORT. Which instruction takes which fault in which state, once for all instructions: an instruction either leaves
FAULT as it was or is in one of these six cases, and in these it does nothing but take the fault (R102, R104, R106). -/

namespace Sys2Proof.Machine

/-- The faults the instructions raise, each with its condition on the state (R61, R63, R90, R91, R92, R96, R106). -/
inductive Raises (s : State) : Instr → Fault → Prop
  | ret (empty : s.sp.val = 0) : Raises s .ret .stackUnderflow
  | call (nnn : Addr) (full : s.sp.val = 16) : Raises s (.call nnn) .stackOverflow
  | drw (x y : RegIndex) (n : Nibble) (rows : n ≠ 0) (out : memSize < s.i.toNat + n.toNat) :
      Raises s (.drw x y n) (.outOfRange (max s.i.toNat memSize))
  | ldB (x : RegIndex) (out : memSize < s.i.toNat + 3) : Raises s (.ldB x) (.outOfRange (max s.i.toNat memSize))
  | ldStore (x : RegIndex) (out : memSize < s.i.toNat + (x.val + 1)) :
      Raises s (.ldStore x) (.outOfRange (max s.i.toNat memSize))
  | ldLoad (x : RegIndex) (out : memSize < s.i.toNat + (x.val + 1)) :
      Raises s (.ldLoad x) (.outOfRange (max s.i.toNat memSize))

variable {s t : State} {i : Instr} {kind : Fault}

theorem skipIf_fault (s : State) (c : Bool) : (s.skipIf c).fault = s.fault := by cases c <;> rfl

theorem decimalDigits_ne_nil (b : Byte) : decimalDigits b ≠ [] := List.cons_ne_nil _ _

theorem State.regsThrough_ne_nil (s : State) (x : RegIndex) : s.regsThrough x ≠ [] :=
  List.ne_nil_of_length_pos (by simp)

/-- An instruction that raises a fault does nothing but take it (R104). -/
theorem exec_of_raises (h : Raises s i kind) : exec i s = .next (s.raise kind) := by
  cases h with
  | ret empty =>
    rcases s.pop_cases with ⟨k, hk, -⟩ | ⟨-, hpop⟩
    · omega
    · simp only [exec, execRet, hpop]
  | call nnn full =>
    rcases s.push_cases s.pc with ⟨hlt, -⟩ | ⟨-, hpush⟩
    · omega
    · simp only [exec, execCall, hpush]
  | drw x y n rows out =>
    rcases execDrw_cases s x y n with ⟨h0 | hle, -⟩ | ⟨-, -, hexec⟩
    · exact absurd h0 rows
    · omega
    · exact hexec
  | ldB x out => exact congrArg Host.Outcome.next (s.storeBytes_of_gt (decimalDigits_ne_nil _) out)
  | ldStore x out =>
    exact congrArg Host.Outcome.next (s.storeBytes_of_gt (s.regsThrough_ne_nil x) (by simpa using out))
  | ldLoad x out =>
    rcases execLdLoad_cases s x with ⟨hle, -⟩ | ⟨-, hexec⟩
    · omega
    · exact hexec

theorem storeBytes_fault_of_le {bs : List Byte} (h : s.i.toNat + bs.length ≤ memSize) :
    (s.storeBytes bs).fault = s.fault := by
  rw [s.storeBytes_of_le h, State.setMem_fault]

/-- An instruction leaves FAULT as it was, or raises its own fault (R106). -/
theorem exec_keeps_fault_or_raises (s : State) (i : Instr) :
    (∃ t, exec i s = .next t ∧ t.fault = s.fault) ∨ ∃ kind, Raises s i kind := by
  cases i with
  | ret =>
    rcases s.pop_cases with ⟨k, -, hpop⟩ | ⟨empty, -⟩
    · refine .inl ⟨_, by rw [exec, execRet, hpop], ?_⟩
      rfl
    · exact .inr ⟨_, .ret empty⟩
  | call nnn =>
    rcases s.push_cases s.pc with ⟨_, hpush⟩ | ⟨full, -⟩
    · refine .inl ⟨_, by rw [exec, execCall, hpush], ?_⟩
      rfl
    · exact .inr ⟨_, .call nnn full⟩
  | drw x y n =>
    rcases execDrw_cases s x y n with ⟨-, _, -, hexec⟩ | ⟨rows, out, -⟩
    · exact .inl ⟨_, hexec, rfl⟩
    · exact .inr ⟨_, .drw x y n rows out⟩
  | ldB x =>
    rcases Nat.lt_or_ge memSize (s.i.toNat + 3) with out | hle
    · exact .inr ⟨_, .ldB x out⟩
    · exact .inl ⟨_, rfl, storeBytes_fault_of_le hle⟩
  | ldStore x =>
    rcases Nat.lt_or_ge memSize (s.i.toNat + (x.val + 1)) with out | hle
    · exact .inr ⟨_, .ldStore x out⟩
    · exact .inl ⟨_, rfl, storeBytes_fault_of_le (by simpa using hle)⟩
  | ldLoad x =>
    rcases execLdLoad_cases s x with ⟨-, hexec⟩ | ⟨out, -⟩
    · exact .inl ⟨_, hexec, rfl⟩
    · exact .inr ⟨_, .ldLoad x out⟩
  | seImm | sneImm | seReg | sneReg | skp | sknp => exact .inl ⟨_, rfl, skipIf_fault s _⟩
  | _ => exact .inl ⟨_, rfl, rfl⟩

/-- An instruction that changes FAULT is one of those that raise a fault, and ends as the entry of R104 leaves the state. -/
theorem raises_of_fault_ne (h : exec i s = .next t) (hf : t.fault ≠ s.fault) :
    ∃ kind, Raises s i kind ∧ t = s.raise kind := by
  rcases exec_keeps_fault_or_raises s i with ⟨t', ht', hkept⟩ | ⟨kind, hr⟩
  · obtain rfl : t = t' := Host.Outcome.next.inj (h.symm.trans ht')
    exact absurd hkept hf
  · exact ⟨kind, hr, Host.Outcome.next.inj (h.symm.trans (exec_of_raises hr))⟩

theorem Raises.takesFault (h : Raises s i kind) : TakesFault i s kind :=
  ⟨_, exec_of_raises h, s.raise_fault kind, changesOnly_raise s kind⟩

/-- Settles O29: each clause is one case of `Raises`. -/
theorem transfersOutOfRangeTakeTheFault : Obligations.TransfersOutOfRangeTakeTheFault := fun _ x y n =>
  ⟨fun rows out => (Raises.drw x y n rows out).takesFault, fun out => (Raises.ldB x out).takesFault,
    fun out => (Raises.ldStore x out).takesFault, fun out => (Raises.ldLoad x out).takesFault⟩

/-- Settles O46: an instruction that takes a fault ends in `s.raise kind`, which changes FAULT only. -/
theorem faultingInstructionCommitsNothing : Obligations.FaultingInstructionCommitsNothing := by
  intro i s t hnone h hf
  obtain ⟨kind, -, rfl⟩ := raises_of_fault_ne h (hnone ▸ hf)
  exact ⟨kind, s.raise_fault kind, changesOnly_raise s kind⟩

end Sys2Proof.Machine
end

section
/-! SUPPORT. What the environment gives the block (the key sample, the random byte, the queue of transactions) put in the
place of what a state holds, and that an operation which does not read it commutes with that replacement (R9, R24, R25). -/

namespace Sys2Proof.Machine

/-- The state with each of the environment's inputs mapped: `id` leaves one, a constant function replaces it. -/
def State.mapInputs (onKeys : Word → Word) (onRnd : Byte → Byte) (onEnv : List Transaction → List Transaction)
    (s : State) : State :=
  { s with keys := onKeys s.keys, rnd := onRnd s.rnd, env := onEnv s.env }

/-- The operation answers a next state, and from the changed state it answers that next state changed alike. -/
def CommutesWith (change : State → State) (run : State → Result) : Prop :=
  ∀ s, ∃ t, run s = .next t ∧ run (change s) = .next (change t)

theorem CommutesWith.next_change {change : State → State} {run : State → Result} (h : CommutesWith change run)
    {s t : State} (ht : run s = .next t) : run (change s) = .next (change t) := by
  obtain ⟨t', ht', hchange⟩ := h s
  obtain rfl : t = t' := Host.Outcome.next.inj (ht.symm.trans ht')
  exact hchange

section

variable (onKeys : Word → Word) (onRnd : Byte → Byte) (onEnv : List Transaction → List Transaction) (s : State)

@[simp] theorem State.mapInputs_mem : (s.mapInputs onKeys onRnd onEnv).mem = s.mem := rfl

@[simp] theorem State.mapInputs_sp : (s.mapInputs onKeys onRnd onEnv).sp = s.sp := rfl

@[simp] theorem State.mapInputs_pc : (s.mapInputs onKeys onRnd onEnv).pc = s.pc := rfl

@[simp] theorem State.mapInputs_effectiveAddress (k : Nat) :
    (s.mapInputs onKeys onRnd onEnv).effectiveAddress k = s.effectiveAddress k := rfl

theorem State.skipIf_mapInputs (c : Bool) :
    (s.mapInputs onKeys onRnd onEnv).skipIf c = (s.skipIf c).mapInputs onKeys onRnd onEnv := by cases c <;> rfl

theorem State.pop_mapInputs :
    (s.mapInputs onKeys onRnd onEnv).pop = s.pop.map (Prod.map id (State.mapInputs onKeys onRnd onEnv)) := by
  by_cases h : 0 < s.sp.val <;> simp only [State.pop, State.mapInputs_sp, h, reduceDIte] <;> rfl

theorem State.push_mapInputs (ret : Word) :
    (s.mapInputs onKeys onRnd onEnv).push ret = (s.push ret).map (State.mapInputs onKeys onRnd onEnv) := by
  by_cases h : s.sp.val < 16 <;> simp only [State.push, State.mapInputs_sp, h, reduceDIte] <;> rfl

theorem State.storeBytes_mapInputs (bs : List Byte) :
    (s.mapInputs onKeys onRnd onEnv).storeBytes bs = (s.storeBytes bs).mapInputs onKeys onRnd onEnv := by
  simp only [State.storeBytes, State.mapInputs_mem, State.mapInputs_effectiveAddress]
  split <;> rfl

/-- An instruction commutes with a change of the inputs that leaves those it reads: the key sample for Ex9E, ExA1 and Fx0A,
the random byte for Cxkk, and no instruction reads the queue. -/
theorem exec_commutesWith_mapInputs (i : Instr)
    (hkeys : onKeys = id ∨ ∀ x, i ≠ .skp x ∧ i ≠ .sknp x ∧ i ≠ .ldK x) (hrnd : onRnd = id ∨ ∀ x kk, i ≠ .rnd x kk) :
    CommutesWith (State.mapInputs onKeys onRnd onEnv) (exec i) := by
  intro s
  cases i with
  | ret =>
    simp only [exec, execRet, s.pop_mapInputs]
    cases s.pop <;> exact ⟨_, rfl, rfl⟩
  | call nnn =>
    simp only [exec, execCall, State.mapInputs_pc, s.push_mapInputs]
    cases s.push s.pc <;> exact ⟨_, rfl, rfl⟩
  | drw x y n =>
    simp only [exec, execDrw, State.mapInputs_mem, State.mapInputs_effectiveAddress]
    cases s.mem.readRange (s.effectiveAddress 0) n.toNat <;> exact ⟨_, rfl, rfl⟩
  | ldLoad x =>
    simp only [exec, execLdLoad, State.mapInputs_mem, State.mapInputs_effectiveAddress]
    cases s.mem.readRange (s.effectiveAddress 0) (x.val + 1) <;> exact ⟨_, rfl, rfl⟩
  | ldB | ldStore => exact ⟨_, rfl, congrArg Host.Outcome.next (s.storeBytes_mapInputs onKeys onRnd onEnv _)⟩
  | seImm | sneImm | seReg | sneReg =>
    exact ⟨_, rfl, congrArg Host.Outcome.next (s.skipIf_mapInputs onKeys onRnd onEnv _)⟩
  | skp x =>
    obtain rfl := hkeys.resolve_right fun h => (h x).1 rfl
    exact ⟨_, rfl, congrArg Host.Outcome.next (s.skipIf_mapInputs id onRnd onEnv _)⟩
  | sknp x =>
    obtain rfl := hkeys.resolve_right fun h => (h x).2.1 rfl
    exact ⟨_, rfl, congrArg Host.Outcome.next (s.skipIf_mapInputs id onRnd onEnv _)⟩
  | ldK x =>
    obtain rfl := hkeys.resolve_right fun h => (h x).2.2 rfl
    exact ⟨_, rfl, rfl⟩
  | rnd x kk =>
    obtain rfl := hrnd.resolve_right fun h => h x kk rfl
    exact ⟨_, rfl, rfl⟩
  | _ => exact ⟨_, rfl, rfl⟩

end

/-- Settles O51: each clause replaces one input and leaves the others. -/
theorem inputsAreReadOnlyByTheirInstructions : Obligations.InputsAreReadOnlyByTheirInstructions := fun i _ _ h =>
  ⟨fun keys hkeys => (exec_commutesWith_mapInputs (fun _ => keys) id id i (.inr hkeys) (.inl rfl)).next_change h,
    fun rnd hrnd => (exec_commutesWith_mapInputs id (fun _ => rnd) id i (.inl rfl) (.inr hrnd)).next_change h⟩

end Sys2Proof.Machine
end

section
/-! SUPPORT. No transaction reads or writes the queue, so a run serves the queue as `performAll` does (R7). -/

namespace Sys2Proof.Machine

/-- The state with another queue of the environment's transactions. -/
def State.setEnv (env : List Transaction) (s : State) : State := { s with env := env }

variable (env : List Transaction)

theorem exec_commutesWith_setEnv (i : Instr) : CommutesWith (State.setEnv env) (exec i) :=
  exec_commutesWith_mapInputs id id (fun _ => env) i (.inl rfl) (.inl rfl)

theorem execute_commutesWith_setEnv (w : Word) : CommutesWith (State.setEnv env) (execute w) := by
  intro s
  unfold execute
  cases decodeWord w with
  | some i => exact exec_commutesWith_setEnv env i s
  | none => exact ⟨_, rfl, rfl⟩

theorem fetchExecute_commutesWith_setEnv : CommutesWith (State.setEnv env) fetchExecute := by
  intro s
  have hfetch : (s.setEnv env).mem.readWord (s.setEnv env).pc.toNat = s.mem.readWord s.pc.toNat := rfl
  simp only [fetchExecute, hfetch]
  cases s.mem.readWord s.pc.toNat with
  | ok w => exact execute_commutesWith_setEnv env w s.advance
  | error a => exact ⟨_, rfl, rfl⟩

theorem keyWaitPoll_setEnv (x : RegIndex) (s : State) :
    keyWaitPoll x (s.setEnv env) = (keyWaitPoll x s).setEnv env := by
  have hpressed : newPresses (s.setEnv env).keys (s.setEnv env).kprev = newPresses s.keys s.kprev := rfl
  simp only [keyWaitPoll, hpressed]
  split <;> rfl

theorem coreStep_commutesWith_setEnv (keys : Word) (rnd : Byte) :
    CommutesWith (State.setEnv env) (coreStep keys rnd) := by
  intro s
  have hfault : (s.setEnv env).fault = s.fault := rfl
  have hwait : (s.setEnv env).wait = s.wait := rfl
  simp only [coreStep, hfault, hwait]
  cases s.fault with
  | some f => exact ⟨_, rfl, rfl⟩
  | none =>
    cases s.wait with
    | some x => exact ⟨_, rfl, congrArg Host.Outcome.next (keyWaitPoll_setEnv env x (s.sample keys rnd))⟩
    | none => exact fetchExecute_commutesWith_setEnv env (s.sample keys rnd)

theorem hostLoad_setEnv (start : Word) (bytes : List Byte) (s : State) :
    (hostLoad start bytes (s.setEnv env)).2 = (hostLoad start bytes s).2.setEnv env := by
  unfold hostLoad
  split <;> rfl

/-- No agent's transaction reads the queue. -/
theorem perform_commutesWith_setEnv (t : Transaction) : CommutesWith (State.setEnv env) (perform t) := by
  intro s
  cases t with
  | step keys rnd => exact coreStep_commutesWith_setEnv env keys rnd s
  | load start bytes => exact ⟨_, rfl, congrArg Host.Outcome.next (hostLoad_setEnv env start bytes s)⟩
  | tick | reset => exact ⟨_, rfl, rfl⟩

/-- No agent's transaction writes the queue. -/
theorem perform_env {t : Transaction} {s u : State} (h : perform t s = .next u) : u.env = s.env := by
  have hsame : perform t s = .next (u.setEnv s.env) :=
    (perform_commutesWith_setEnv s.env t).next_change (s := s) h
  have hu : u = u.setEnv s.env := Host.Outcome.next.inj (h.symm.trans hsame)
  rw [hu]
  rfl

theorem step_of_env_cons {s : State} {t : Transaction} {rest : List Transaction} (h : s.env = t :: rest) :
    step s = perform t (s.setEnv rest) := by
  rw [step, nextTransaction, h]
  rfl

theorem run_succ_of_step {s u : State} (h : step s = .next u) (k : Nat) :
    Host.Core.run core (k + 1) s = Host.Core.run core k u := by
  simp only [Host.Core.run, Host.Check.core_step, h]

/-- Settles O8, by induction on the queue: what is queued behind a transaction does not show in what it does. -/
theorem runPerformsTheQueuedTransactions : Obligations.RunPerformsTheQueuedTransactions := by
  intro s ts hs
  induction ts generalizing s with
  | nil => exact congrArg (fun env => Host.Outcome.next (s.setEnv env)) hs
  | cons t ts ih =>
    obtain ⟨u, hu⟩ := perform_next (s.setEnv []) t
    have hperform : perform t (s.setEnv ts) = .next (u.setEnv ts) :=
      (perform_commutesWith_setEnv ts t).next_change (s := s.setEnv []) hu
    have huenv : u.setEnv [] = u := congrArg u.setEnv (perform_env hu).symm
    have hrun : Host.Core.run core (ts.length + 1) s = performAll ts (u.setEnv []) :=
      (run_succ_of_step ((step_of_env_cons hs).trans hperform) _).trans (ih (u.setEnv ts) rfl)
    have hall : performAll (t :: ts) (s.setEnv []) = performAll ts u := by rw [performAll, hu]
    exact hrun.trans ((congrArg (performAll ts) huenv).trans hall.symm)

end Sys2Proof.Machine
end

section
/-! SUPPORT. The call stack by the entry it uses: a push writes an entry and SP, a pop writes SP (R61, R63). -/

namespace Sys2Proof.Machine

/-- `SP <- n` (R19). -/
def State.setSp (s : State) (n : Fin 17) : State := { s with sp := n }

/-- `STACK[k] <- a` (R18). -/
def State.setEntry (s : State) (k : Fin 16) (a : Word) : State := { s with stack := s.stack.set k.val a k.isLt }

theorem State.setEntry_getElem (s : State) (k j : Fin 16) (a : Word) :
    (s.setEntry k a).stack[j.val] = if j = k then a else s.stack[j.val] := by
  simp only [State.setEntry, Vector.getElem_set, Fin.ext_iff, eq_comm]

theorem changesOnly_setSp (s : State) (n : Fin 17) : ChangesOnly (· = .sp) s (s.setSp n) := by
  intro p hp
  cases p with
  | sp => exact absurd rfl hp
  | _ => rfl

theorem changesOnly_setEntry (s : State) (k : Fin 16) (a : Word) :
    ChangesOnly (· = .entry k) s (s.setEntry k a) := by
  intro p hp
  cases p with
  | entry j => exact (s.setEntry_getElem k j a).trans (if_neg fun h => hp (congrArg Part.entry h))
  | _ => rfl

theorem State.push_of_free {s : State} {k : Fin 16} (free : s.sp.val = k.val) (ret : Word) :
    s.push ret = some ((s.setEntry k ret).setSp k.succ) := by
  rcases s.push_cases ret with ⟨_, hpush⟩ | ⟨full, -⟩
  · simp only [hpush, State.setEntry, State.setSp, free]
    rfl
  · omega

theorem State.pop_of_live {s : State} {k : Fin 16} (live : s.sp.val = k.val + 1) :
    s.pop = some (s.stack[k.val], s.setSp k.castSucc) := by
  rcases s.pop_cases with ⟨j, hj, hpop⟩ | ⟨empty, -⟩
  · obtain rfl : j = k := Fin.ext (by omega)
    exact hpop
  · omega

theorem exec_call_of_free {s : State} {k : Fin 16} (free : s.sp.val = k.val) (nnn : Addr) :
    exec (.call nnn) s = .next (((s.setEntry k s.pc).setSp k.succ).setPc (zextAddr nnn)) := by
  rw [exec, execCall, State.push_of_free free]

theorem exec_ret_of_live {s : State} {k : Fin 16} (live : s.sp.val = k.val + 1) :
    exec .ret s = .next ((s.setSp k.castSucc).setPc s.stack[k.val]) := by
  rw [exec, execRet, State.pop_of_live live]

/-- Settles O11: a push writes its entry and SP, the jump PC; with no entry free the call raises its fault. -/
theorem callPushesTheReturnAddressOrOverflows : Obligations.CallPushesTheReturnAddressOrOverflows := by
  refine fun nnn s => ⟨fun k free => ⟨_, exec_call_of_free free nnn, ?_, rfl, zextAddr_toNat nnn, ?_⟩,
    fun full => (Raises.call nnn full).takesFault⟩
  · exact (s.setEntry_getElem k k s.pc).trans (if_pos rfl)
  · have hentry := (changesOnly_setEntry s k s.pc).mono (allowed' := (· ∈ [.pc, .sp, .entry k])) (by simp)
    have hsp := (changesOnly_setSp (s.setEntry k s.pc) k.succ).mono
      (allowed' := (· ∈ [.pc, .sp, .entry k])) (by simp)
    exact (hentry.trans hsp).trans ((changesOnly_setPc _ _).mono (by simp))

/-- Settles O12: a pop writes SP, the return PC; with no entry live the return raises its fault. -/
theorem returnPopsTheReturnAddressOrUnderflows : Obligations.ReturnPopsTheReturnAddressOrUnderflows := by
  refine fun s => ⟨fun k live => ⟨_, exec_ret_of_live live, rfl, rfl, ?_⟩,
    fun empty => (Raises.ret empty).takesFault⟩
  have hsp := (changesOnly_setSp s k.castSucc).mono (allowed' := (· ∈ [.pc, .sp])) (by simp)
  exact hsp.trans ((changesOnly_setPc _ _).mono (by simp))

end Sys2Proof.Machine
end

section
/-! SUPPORT. All an instruction can do, once for all instructions: which parts of the state it writes, with which values and
in which states. Who writes a part, and what every instruction keeps, follow by cases on it. -/

namespace Sys2Proof.Machine

/-- Where a skip leaves PC (R66). -/
def State.skipTarget (s : State) (condition : Bool) : Word := if condition then s.pc + 2 else s.pc

theorem State.skipIf_eq_setPc (s : State) (c : Bool) : s.skipIf c = s.setPc (s.skipTarget c) := by cases c <;> rfl

/-- The instructions that write PC only, with the value (R62, R64, R67..R72). -/
inductive Targets (s : State) : Instr → Word → Prop
  | jp (nnn : Addr) : Targets s (.jp nnn) (zextAddr nnn)
  | jpV0 (nnn : Addr) : Targets s (.jpV0 nnn) (jumpOffset nnn (s.reg 0))
  | seImm (x : RegIndex) (kk : Byte) : Targets s (.seImm x kk) (s.skipTarget (s.reg x == kk))
  | sneImm (x : RegIndex) (kk : Byte) : Targets s (.sneImm x kk) (s.skipTarget (s.reg x != kk))
  | seReg (x y : RegIndex) : Targets s (.seReg x y) (s.skipTarget (s.reg x == s.reg y))
  | sneReg (x y : RegIndex) : Targets s (.sneReg x y) (s.skipTarget (s.reg x != s.reg y))
  | skp (x : RegIndex) : Targets s (.skp x) (s.skipTarget (keyHeld s.keys (s.reg x)))
  | sknp (x : RegIndex) : Targets s (.sknp x) (s.skipTarget (!keyHeld s.keys (s.reg x)))

/-- The instructions that write one register only, with the register and the value (R75..R80, R86, R97). -/
inductive Loads (s : State) : Instr → RegIndex → Byte → Prop
  | ldImm (x : RegIndex) (kk : Byte) : Loads s (.ldImm x kk) x kk
  | addImm (x : RegIndex) (kk : Byte) : Loads s (.addImm x kk) x (addMod (s.reg x) kk)
  | ldReg (x y : RegIndex) : Loads s (.ldReg x y) x (s.reg y)
  | orReg (x y : RegIndex) : Loads s (.orReg x y) x (s.reg x ||| s.reg y)
  | andReg (x y : RegIndex) : Loads s (.andReg x y) x (s.reg x &&& s.reg y)
  | xorReg (x y : RegIndex) : Loads s (.xorReg x y) x (s.reg x ^^^ s.reg y)
  | rnd (x : RegIndex) (kk : Byte) : Loads s (.rnd x kk) x (s.rnd &&& kk)
  | ldFromDt (x : RegIndex) : Loads s (.ldFromDt x) x s.dt

/-- The instructions that write VF as a flag and then a register, with the flag, the register and the result (R81..R85). -/
inductive Flags (s : State) : Instr → Byte → RegIndex → Byte → Prop
  | addReg (x y : RegIndex) :
      Flags s (.addReg x y) (carryFlag (s.reg x) (s.reg y)) x (addMod (s.reg x) (s.reg y))
  | sub (x y : RegIndex) : Flags s (.sub x y) (notBorrowFlag (s.reg x) (s.reg y)) x (subMod (s.reg x) (s.reg y))
  | shr (x y : RegIndex) : Flags s (.shr x y) (lowBitFlag (s.reg x)) x (shiftRight (s.reg x))
  | subn (x y : RegIndex) : Flags s (.subn x y) (notBorrowFlag (s.reg y) (s.reg x)) x (subMod (s.reg y) (s.reg x))
  | shl (x y : RegIndex) : Flags s (.shl x y) (highBitFlag (s.reg x)) x (shiftLeft (s.reg x))

/-- The instructions that write I only, with the value (R87, R88, R89). -/
inductive Points (s : State) : Instr → Word → Prop
  | ldI (nnn : Addr) : Points s (.ldI nnn) (zextAddr nnn)
  | addI (x : RegIndex) : Points s (.addI x) (addIndex s.i (s.reg x))
  | ldF (x : RegIndex) : Points s (.ldF x) (glyphAddress (s.reg x))

/-- The instructions that store bytes from I on, with the bytes (R90, R91). -/
inductive Stores (s : State) : Instr → List Byte → Prop
  | ldB (x : RegIndex) : Stores s (.ldB x) (decimalDigits (s.reg x))
  | ldStore (x : RegIndex) : Stores s (.ldStore x) (s.regsThrough x)

/-- The state an instruction leaves. -/
inductive Effect (s : State) : Instr → State → Prop
  | fault {i : Instr} {kind : Fault} (raised : Raises s i kind) : Effect s i (s.raise kind)
  | jump {i : Instr} {a : Word} (target : Targets s i a) : Effect s i (s.setPc a)
  | call (nnn : Addr) (k : Fin 16) (free : s.sp.val = k.val) :
      Effect s (.call nnn) (((s.setEntry k s.pc).setSp k.succ).setPc (zextAddr nnn))
  | ret (k : Fin 16) (live : s.sp.val = k.val + 1) :
      Effect s .ret ((s.setSp k.castSucc).setPc s.stack[k.val])
  | load {i : Instr} {x : RegIndex} {b : Byte} (loads : Loads s i x b) : Effect s i (s.setReg x b)
  | flag {i : Instr} {f : Byte} {x : RegIndex} {b : Byte} (flags : Flags s i f x b) :
      Effect s i (s.setFlagThenReg f x b)
  | loadRange (x : RegIndex) (fits : s.i.toNat + (x.val + 1) ≤ memSize) :
      Effect s (.ldLoad x) (s.setRegs ((List.range' s.i.toNat (x.val + 1)).map s.mem.byteAt))
  | index {i : Instr} {a : Word} (points : Points s i a) : Effect s i (s.setI a)
  | store {i : Instr} {bs : List Byte} (stores : Stores s i bs) (fits : s.i.toNat + bs.length ≤ memSize) :
      Effect s i (s.setMem (s.mem.setBytes s.i.toNat bs))
  | clear : Effect s .cls (s.setFb Framebuffer.clear)
  | draw (x y : RegIndex) (n : Nibble) (drawn : Framebuffer × Bool) (fits : n = 0 ∨ s.i.toNat + n.toNat ≤ memSize)
      (draws : Draws (RowsCover (s.reg x).toNat (s.reg y).toNat ((List.range' s.i.toNat n.toNat).map s.mem.byteAt))
        (s.fb, false) drawn) :
      Effect s (.drw x y n) ((s.setFb drawn.1).setReg flagReg (flagByte drawn.2))
  | delayTimer (x : RegIndex) : Effect s (.ldDt x) (s.setDt (s.reg x))
  | soundTimer (x : RegIndex) : Effect s (.ldSt x) (s.setSt (s.reg x))
  | keyWait (x : RegIndex) : Effect s (.ldK x) ((s.setWait (some x) s.keys).setPc (s.pc - 2))

variable {s t : State} {i : Instr}

theorem Raises.exec_effect {kind : Fault} (h : Raises s i kind) : ∃ t, exec i s = .next t ∧ Effect s i t :=
  ⟨_, exec_of_raises h, .fault h⟩

/-- An instruction does one of the things `Effect` lists. -/
theorem exec_effect (s : State) (i : Instr) : ∃ t, exec i s = .next t ∧ Effect s i t := by
  cases i with
  | ret =>
    rcases s.pop_cases with ⟨k, live, -⟩ | ⟨empty, -⟩
    · exact ⟨_, exec_ret_of_live live, .ret k live⟩
    · exact (Raises.ret empty).exec_effect
  | call nnn =>
    rcases s.push_cases s.pc with ⟨hlt, -⟩ | ⟨full, -⟩
    · exact ⟨_, exec_call_of_free (k := ⟨_, hlt⟩) rfl nnn, .call nnn _ rfl⟩
    · exact (Raises.call nnn full).exec_effect
  | drw x y n =>
    rcases execDrw_cases s x y n with ⟨fits, drawn, draws, hexec⟩ | ⟨rows, out, -⟩
    · exact ⟨_, hexec, .draw x y n drawn fits draws⟩
    · exact (Raises.drw x y n rows out).exec_effect
  | ldB x =>
    rcases storeBytes_cases s (decimalDigits_ne_nil (s.reg x)) with ⟨fits, hstore⟩ | ⟨out, -⟩
    · exact ⟨_, congrArg Host.Outcome.next hstore, .store (.ldB x) fits⟩
    · exact (Raises.ldB x out).exec_effect
  | ldStore x =>
    rcases storeBytes_cases s (s.regsThrough_ne_nil x) with ⟨fits, hstore⟩ | ⟨out, -⟩
    · exact ⟨_, congrArg Host.Outcome.next hstore, .store (.ldStore x) fits⟩
    · exact (Raises.ldStore x (by simpa using out)).exec_effect
  | ldLoad x =>
    rcases execLdLoad_cases s x with ⟨fits, hexec⟩ | ⟨out, -⟩
    · exact ⟨_, hexec, .loadRange x fits⟩
    · exact (Raises.ldLoad x out).exec_effect
  | jp | jpV0 => exact ⟨_, rfl, .jump (by constructor)⟩
  | seImm | sneImm | seReg | sneReg | skp | sknp =>
    exact ⟨_, congrArg Host.Outcome.next (s.skipIf_eq_setPc _), .jump (by constructor)⟩
  | ldImm | addImm | ldReg | orReg | andReg | xorReg | rnd | ldFromDt =>
    exact ⟨_, rfl, .load (by constructor)⟩
  | addReg | sub | shr | subn | shl => exact ⟨_, rfl, .flag (by constructor)⟩
  | ldI | addI | ldF => exact ⟨_, rfl, .index (by constructor)⟩
  | cls => exact ⟨_, rfl, .clear⟩
  | ldDt x => exact ⟨_, rfl, .delayTimer x⟩
  | ldSt x => exact ⟨_, rfl, .soundTimer x⟩
  | ldK x => exact ⟨_, rfl, .keyWait x⟩

theorem effect_of_exec (h : exec i s = .next t) : Effect s i t := by
  obtain ⟨t', ht', effect⟩ := exec_effect s i
  obtain rfl : t = t' := Host.Outcome.next.inj (h.symm.trans ht')
  exact effect

/-! Who writes a part of the state. -/

theorem Effect.i_eq_or (h : Effect s i t) : t.i = s.i ∨ (∃ nnn, i = .ldI nnn) ∨ ∃ x, i = .addI x ∨ i = .ldF x := by
  cases h with
  | index points =>
    cases points with
    | ldI nnn => exact .inr (.inl ⟨nnn, rfl⟩)
    | addI x => exact .inr (.inr ⟨x, .inl rfl⟩)
    | ldF x => exact .inr (.inr ⟨x, .inr rfl⟩)
  | _ => exact .inl rfl

theorem Effect.sp_eq_or (h : Effect s i t) : t.sp = s.sp ∨ i = .ret ∨ ∃ nnn, i = .call nnn := by
  cases h with
  | ret => exact .inr (.inl rfl)
  | call nnn => exact .inr (.inr ⟨nnn, rfl⟩)
  | _ => exact .inl rfl

theorem Effect.stack_eq_or (h : Effect s i t) : t.stack = s.stack ∨ ∃ nnn, i = .call nnn := by
  cases h with
  | call nnn => exact .inr ⟨nnn, rfl⟩
  | _ => exact .inl rfl

theorem Effect.mem_eq_or (h : Effect s i t) : t.mem = s.mem ∨ ∃ x, i = .ldB x ∨ i = .ldStore x := by
  cases h with
  | store stores =>
    cases stores with
    | ldB x => exact .inr ⟨x, .inl rfl⟩
    | ldStore x => exact .inr ⟨x, .inr rfl⟩
  | _ => exact .inl rfl

theorem Effect.fb_eq_or (h : Effect s i t) : t.fb = s.fb ∨ i = .cls ∨ ∃ x y n, i = .drw x y n := by
  cases h with
  | clear => exact .inr (.inl rfl)
  | draw x y n => exact .inr (.inr ⟨x, y, n, rfl⟩)
  | _ => exact .inl rfl

theorem Effect.dt_eq_or (h : Effect s i t) : t.dt = s.dt ∨ ∃ x, i = .ldDt x := by
  cases h with
  | delayTimer x => exact .inr ⟨x, rfl⟩
  | _ => exact .inl rfl

theorem Effect.st_eq_or (h : Effect s i t) : t.st = s.st ∨ ∃ x, i = .ldSt x := by
  cases h with
  | soundTimer x => exact .inr ⟨x, rfl⟩
  | _ => exact .inl rfl

theorem Effect.wait_eq_or (h : Effect s i t) : t.wait = s.wait ∨ ∃ x, i = .ldK x := by
  cases h with
  | keyWait x => exact .inr ⟨x, rfl⟩
  | _ => exact .inl rfl

/-- Settles O49. -/
theorem writersOfIAndTheCallStack : Obligations.WritersOfIAndTheCallStack := fun _ _ _ h =>
  have effect := effect_of_exec h
  ⟨effect.i_eq_or.resolve_left, effect.sp_eq_or.resolve_left, effect.stack_eq_or.resolve_left⟩

/-- Settles O50. -/
theorem writersOfMemoryScreenTimersAndWait : Obligations.WritersOfMemoryScreenTimersAndWait := fun _ _ _ h =>
  have effect := effect_of_exec h
  ⟨effect.mem_eq_or.resolve_left, effect.fb_eq_or.resolve_left, effect.dt_eq_or.resolve_left,
    effect.st_eq_or.resolve_left, effect.wait_eq_or.resolve_left⟩

/-- A range loaded into V0..Vx leaves the registers above Vx (R92). -/
theorem reg_setRegs_of_length_le {bs : List Byte} {r : RegIndex} (h : bs.length ≤ r.val) :
    (s.setRegs bs).reg r = s.reg r := by
  rw [State.reg_setRegs, List.getElem?_eq_none h, Option.getD_none]

/-- Settles O24: VF changes as a flag, or as the register `Loads` names, or as the last of V0..Vx. -/
theorem vfIsWrittenOnlyAsFlagOrDestination : Obligations.VfIsWrittenOnlyAsFlagOrDestination := by
  intro i s t h hne
  cases effect_of_exec h with
  | flag flags => cases flags <;> simp
  | draw x y n => simp
  | @load _ x b loads =>
    obtain rfl : 15 = x := by
      by_contra hx
      exact hne ((s.reg_setReg x 15 b).trans (if_neg hx))
    cases loads <;> simp
  | loadRange x =>
    obtain rfl : x = 15 := by
      by_contra hx
      have hlt : x.val < 15 := by have := Fin.val_ne_of_ne hx; omega
      exact hne (reg_setRegs_of_length_le (by simpa using hlt))
    simp
  | _ => exact absurd rfl hne

end Sys2Proof.Machine
end

section
/-! SUPPORT. Single instructions and the key wait's poll (R86, R100, R101). -/

namespace Sys2Proof.Machine

/-- Settles O23. -/
theorem randomByteIsMasked : Obligations.RandomByteIsMasked := fun x kk s =>
  ⟨s.setReg x (s.rnd &&& kk), rfl, by simp, changesOnly_setReg s x _⟩

/-- Settles O41. -/
theorem keyWaitIsEntered : Obligations.KeyWaitIsEntered := by
  refine fun x s => ⟨(s.setWait (some x) s.keys).setPc (s.pc - 2), rfl, rfl, rfl, rfl, ?_⟩
  have hwait := (changesOnly_setWait s (some x) s.keys).mono (allowed' := (· ∈ [.wait, .kprev, .pc]))
    (by simp +contextual)
  exact hwait.trans ((changesOnly_setPc _ _).mono (by simp))

theorem newPresses_getLsbD (keys kprev : Word) (k : Fin 16) :
    (newPresses keys kprev).getLsbD k.val = (keys.getLsbD k.val && !kprev.getLsbD k.val) := by
  simp [newPresses]

/-- A poll that sees no new press takes the sample as the next reference (R101). -/
theorem keyWaitPoll_of_noPress {s : State} (h : NoPress s.kprev s.keys) (x : RegIndex) :
    keyWaitPoll x s = s.setWait s.wait s.keys := by
  rcases keyWaitPoll_cases s x with ⟨-, hpoll⟩ | ⟨k, hheld, hbefore, -⟩
  · exact hpoll
  · exact absurd (hbefore.symm.trans (h k.val hheld)) Bool.false_ne_true

/-- A poll that sees new presses takes the lowest (R101, D14). -/
theorem keyWaitPoll_of_lowest {s : State} {k : Fin 16} (hheld : s.keys.getLsbD k.val = true)
    (hbefore : s.kprev.getLsbD k.val = false)
    (hlow : ∀ l : Fin 16, l < k → s.keys.getLsbD l.val = true → s.kprev.getLsbD l.val = true) (x : RegIndex) :
    keyWaitPoll x s = ((s.setReg x (keyByte k)).setWait none s.kprev).advance := by
  have hlowest : lowestKey (newPresses s.keys s.kprev) = some k :=
    lowestKey_eq_some (by rw [newPresses_getLsbD, hheld, hbefore]; rfl) fun l hl => by
      rw [newPresses_getLsbD]
      cases hkey : s.keys.getLsbD l.val with
      | false => rfl
      | true => rw [hlow l hl hkey]; rfl
  rw [keyWaitPoll, hlowest]

theorem coreStep_of_wait {s : State} {x : RegIndex} (hfault : s.fault = none) (hwait : s.wait = some x) (keys : Word)
    (rnd : Byte) : coreStep keys rnd s = .next (keyWaitPoll x (s.sample keys rnd)) := by
  rw [coreStep, hfault, hwait]

/-- A poll without a press writes WAIT with its own value. -/
theorem changesOnly_setWait_wait (s : State) (k : Word) : ChangesOnly (· = .kprev) s (s.setWait s.wait k) := by
  intro p hp
  cases p with
  | kprev => exact absurd rfl hp
  | _ => rfl

/-- The end of a wait writes KPREV with its own value. -/
theorem changesOnly_setWait_kprev (s : State) : ChangesOnly (· = .wait) s (s.setWait none s.kprev) := by
  intro p hp
  cases p with
  | wait => exact absurd rfl hp
  | _ => rfl

/-- Settles O42: a step during a wait is a poll of the sampled state. -/
theorem keyWaitPollTakesTheLowestNewPress : Obligations.KeyWaitPollTakesTheLowestNewPress := by
  intro x s keys rnd hfault hwait
  rw [coreStep_of_wait hfault hwait]
  refine ⟨fun hquiet => ⟨_, rfl, ?_⟩, fun k hheld hbefore hlow => ⟨_, rfl, ?_⟩⟩
  · rw [keyWaitPoll_of_noPress (s := s.sample keys rnd) hquiet]
    have hsample := (changesOnly_sample s keys rnd).mono (allowed' := (· ∈ [.kprev, .keys, .rnd, .samples]))
      (by simp +contextual)
    exact ⟨rfl, hsample.trans ((changesOnly_setWait_wait _ keys).mono (by simp))⟩
  · rw [keyWaitPoll_of_lowest (s := s.sample keys rnd) hheld hbefore hlow]
    refine ⟨by simp, rfl, rfl, ?_⟩
    have hsample := (changesOnly_sample s keys rnd).mono
      (allowed' := (· ∈ [.reg x, .wait, .pc, .keys, .rnd, .samples])) (by simp +contextual)
    have hreg := hsample.trans ((changesOnly_setReg _ x (keyByte k)).mono (by simp))
    have hend := hreg.trans ((changesOnly_setWait_kprev _).mono (by simp))
    exact hend.trans ((changesOnly_advance _).mono (by simp))

end Sys2Proof.Machine
end

section
/-! SUPPORT. A step of the machine is one transaction of one agent (R7). -/

namespace Sys2Proof.Machine

/-- A step is one transaction, queued or the default core step, with the queue after it already in place (R7). -/
theorem step_eq_perform (s : State) : ∃ tr rest, step s = perform tr (s.setEnv rest) := by
  cases henv : s.env with
  | cons tr rest => exact ⟨tr, rest, step_of_env_cons henv⟩
  | nil =>
    refine ⟨.step (Config.freeKeys s.samples) (Config.freeRandom s.samples), s.env, ?_⟩
    rw [step, nextTransaction, henv]
    exact congrArg (coreStep _ _) (congrArg s.setEnv henv)

/-- Settles O7. -/
theorem everyStepAnswersANextState : Obligations.EveryStepAnswersANextState := fun s => by
  obtain ⟨tr, rest, hstep⟩ := step_eq_perform s
  rw [hstep]
  exact perform_next _ tr

end Sys2Proof.Machine
end

section
/-! SUPPORT. The invariant holds at reset and every agent's transaction keeps it, so it holds of every reachable state (R19,
R38, R100, R104, R107). -/

namespace Sys2Proof.Machine

variable {s t : State}

theorem FaultFits.congr {f : FaultRecord} (h : FaultFits f s) (hpc : t.pc = s.pc) (hsp : t.sp = s.sp) :
    FaultFits f t := by
  simpa only [FaultFits, hpc, hsp] using h

/-- The invariant reads PC, the call stack, the wait, the latch, and of memory its form. -/
theorem Inv.congr (h : Inv s) (hmem : t.mem.wf = true) (hpc : t.pc = s.pc) (hsp : t.sp = s.sp)
    (hstack : t.stack = s.stack) (hwait : t.wait = s.wait) (hfault : t.fault = s.fault) : Inv t where
  memory := hmem
  pcBound := by rw [hpc]; exact h.pcBound
  entries := by rw [hsp, hstack]; exact h.entries
  waiting := by rw [hwait, hpc, hfault]; exact h.waiting
  latched := by rw [hfault]; exact fun f hf => (h.latched f hf).congr hpc hsp

/-- The call stack holds addresses a call can push (R19). -/
def StackFits (s : State) : Prop :=
  ∀ k : Fin 16, k.val < s.sp.val → 2 ≤ s.stack[k.val].toNat ∧ s.stack[k.val].toNat ≤ 0x1000

/-- With no wait pending and no fault latched, the invariant is about memory, PC and the call stack. -/
theorem Inv.of_idle (hmem : t.mem.wf = true) (hpc : t.pc.toNat ≤ 0x10FE) (hstack : StackFits t)
    (hwait : t.wait = none) (hfault : t.fault = none) : Inv t where
  memory := hmem
  pcBound := hpc
  entries := hstack
  waiting := fun h => absurd hwait h
  latched := fun f hf => by rw [hfault] at hf; cases hf

/-- The states instructions run in: the invariant holds, PC is past a fetched word, no wait is pending and no fault latched
(R56). -/
structure Fetched (s : State) : Prop where
  inv : Inv s
  pcLow : 2 ≤ s.pc.toNat
  pcHigh : s.pc.toNat ≤ 0x1000
  idle : s.wait = none
  running : s.fault = none

theorem Fetched.origin (h : Fetched s) : s.pc.toNat = (s.pc - 2).toNat + 2 ∧ (s.pc - 2).toNat ≤ 0xFFE := by
  have hlow := h.pcLow
  have hhigh := h.pcHigh
  constructor <;> bv_omega

/-- A latched fault of an instruction fits the state (R104). -/
theorem Fetched.inv_raise (h : Fetched s) {kind : Fault} (fits : FaultFits ⟨kind, s.pc - 2⟩ s) : Inv (s.raise kind) where
  memory := h.inv.memory
  pcBound := h.inv.pcBound
  entries := h.inv.entries
  waiting := fun hw => absurd h.idle hw
  latched := by
    rintro f ⟨⟩
    exact fits.congr rfl rfl

theorem Fetched.faultFits_outOfRange (h : Fetched s) (a : Word) :
    FaultFits ⟨.outOfRange (max a.toNat memSize), s.pc - 2⟩ s := by
  have ha := a.isLt
  exact ⟨by simp [memSize], by simp [memSize]; omega, .inr h.origin⟩

/-- The faults of the instructions fit the state they are raised in (R102, R104). -/
theorem Fetched.faultFits_of_raises (h : Fetched s) {i : Instr} {kind : Fault} (raised : Raises s i kind) :
    FaultFits ⟨kind, s.pc - 2⟩ s := by
  cases raised with
  | ret empty => exact ⟨empty, h.origin⟩
  | call nnn full => exact ⟨full, h.origin⟩
  | drw | ldB | ldStore | ldLoad => exact h.faultFits_outOfRange s.i

theorem skipTarget_toNat_le (h : s.pc.toNat ≤ 0x1000) (c : Bool) : (s.skipTarget c).toNat ≤ 0x10FE := by
  cases c with
  | false => exact h.trans (by decide)
  | true =>
    rw [State.skipTarget, if_pos rfl]
    bv_omega

/-- No jump and no skip leads past 0x10FE, which Bnnn reaches (R38). -/
theorem Targets.toNat_le {i : Instr} {a : Word} (h : Targets s i a) (hpc : s.pc.toNat ≤ 0x1000) : a.toNat ≤ 0x10FE := by
  cases h with
  | jp nnn => rw [zextAddr_toNat]; omega
  | jpV0 nnn => rw [jumpOffset_toNat]; omega
  | seImm | sneImm | seReg | sneReg | skp | sknp => exact skipTarget_toNat_le hpc _

/-- A call pushes an address past a fetched word (R19). -/
theorem Fetched.stackFits_push (h : Fetched s) {k : Fin 16} (free : s.sp.val = k.val) (a : Word) :
    StackFits (((s.setEntry k s.pc).setSp k.succ).setPc a) := by
  intro j hj
  change 2 ≤ (s.setEntry k s.pc).stack[j.val].toNat ∧ (s.setEntry k s.pc).stack[j.val].toNat ≤ 0x1000
  rw [State.setEntry_getElem]
  split
  · exact ⟨h.pcLow, h.pcHigh⟩
  next hne =>
    have hjk : j.val < k.val + 1 := hj
    have := Fin.val_ne_of_ne hne
    exact h.inv.entries j (by omega)

/-- Every instruction keeps the invariant. -/
theorem Fetched.inv_of_effect (h : Fetched s) {i : Instr} (effect : Effect s i t) : Inv t := by
  cases effect with
  | fault raised => exact h.inv_raise (h.faultFits_of_raises raised)
  | jump target => exact .of_idle h.inv.memory (target.toNat_le h.pcHigh) h.inv.entries h.idle h.running
  | call nnn k free =>
    refine .of_idle h.inv.memory ?_ (h.stackFits_push free _) h.idle h.running
    rw [State.setPc_pc, zextAddr_toNat]
    omega
  | ret k live =>
    have hentry := (h.inv.entries k (by omega)).2
    exact .of_idle h.inv.memory (hentry.trans (by decide))
      (fun j (hj : j.val < k.val) => h.inv.entries j (by omega)) h.idle h.running
  | store stores fits => exact h.inv.congr (Memory.wf_setBytes h.inv.memory fits) rfl rfl rfl rfl rfl
  | keyWait x =>
    exact ⟨h.inv.memory, h.origin.2.trans (by decide), h.inv.entries, fun _ => ⟨h.origin.2, h.running⟩,
      fun f hf => absurd (h.running.symm.trans hf) nofun⟩
  | load | flag | loadRange | index | clear | draw | delayTimer | soundTimer =>
    exact h.inv.congr h.inv.memory rfl rfl rfl rfl rfl

theorem Fetched.inv_of_execute (h : Fetched s) {w : Word} (ht : execute w s = .next t) : Inv t := by
  unfold execute at ht
  split at ht
  next i hw => exact h.inv_of_effect (effect_of_exec ht)
  next hw =>
    obtain rfl := Host.Outcome.next.inj ht
    exact h.inv_raise ⟨hw, h.origin⟩

/-- A poll keeps the invariant: PC is on the instruction until the wait ends, and then past it (R100, R101). -/
theorem inv_keyWaitPoll (h : Inv s) {x : RegIndex} (hwait : s.wait = some x) : Inv (keyWaitPoll x s) := by
  obtain ⟨hpc, hfault⟩ := h.waiting (by simp [hwait])
  rcases keyWaitPoll_cases s x with ⟨-, hpoll⟩ | ⟨k, -, -, hpoll⟩
  · rw [hpoll]
    exact h.congr h.memory rfl rfl rfl rfl rfl
  · rw [hpoll]
    refine .of_idle h.memory ?_ h.entries rfl hfault
    change (s.pc + 2).toNat ≤ 0x10FE
    bv_omega

/-- A fetch fault fits the state it is latched in (R37, R104). -/
theorem Inv.latch_fetchFault (h : Inv s) (hwait : s.wait = none) (hpc : memSize ≤ s.pc.toNat + 1) :
    Inv (s.latch (.outOfRange (max s.pc.toNat memSize)) s.pc) where
  memory := h.memory
  pcBound := h.pcBound
  entries := h.entries
  waiting := fun hw => absurd hwait hw
  latched := by
    rintro f ⟨⟩
    have hlt := s.pc.isLt
    simp only [memSize] at hpc
    exact ⟨by simp [memSize], by simp [memSize]; omega, .inl ⟨rfl, by simp; omega, rfl⟩⟩

theorem Inv.sample (h : Inv s) (keys : Word) (rnd : Byte) : Inv (s.sample keys rnd) :=
  h.congr h.memory rfl rfl rfl rfl rfl

theorem Inv.fetched_advance (h : Inv s) (hwait : s.wait = none) (hfault : s.fault = none)
    (hpc : s.pc.toNat + 1 < memSize) : Fetched s.advance := by
  have hnext : s.advance.pc.toNat = s.pc.toNat + 2 := by
    simp only [memSize] at hpc
    rw [State.advance_pc]
    bv_omega
  simp only [memSize] at hpc
  exact ⟨.of_idle h.memory (by omega) h.entries hwait hfault, by omega, by omega, hwait, hfault⟩

theorem Inv.of_coreStep (h : Inv s) {keys : Word} {rnd : Byte} (ht : coreStep keys rnd s = .next t) : Inv t := by
  have hsampled := h.sample keys rnd
  rcases coreStep_cases s keys rnd with
    ⟨-, hstep⟩ | ⟨-, x, hwait, hstep⟩ | ⟨-, hwait, hpc, hstep⟩ | ⟨hfault, hwait, hpc, hstep⟩
  · obtain rfl := Host.Outcome.next.inj (hstep.symm.trans ht)
    exact h
  · obtain rfl := Host.Outcome.next.inj (hstep.symm.trans ht)
    exact inv_keyWaitPoll hsampled hwait
  · obtain rfl := Host.Outcome.next.inj (hstep.symm.trans ht)
    exact hsampled.latch_fetchFault hwait hpc
  · exact (hsampled.fetched_advance hwait hfault hpc).inv_of_execute (hstep.symm.trans ht)

theorem inv_hostLoad (h : Inv s) (start : Word) (bytes : List Byte) : Inv (hostLoad start bytes s).2 := by
  unfold hostLoad
  split
  next hfits => exact h.congr (Memory.wf_setBytes h.memory hfits) rfl rfl rfl rfl rfl
  next => exact h

theorem inv_hostReset (s : State) : Inv (hostReset s) :=
  .of_idle rfl (show State.reset.pc.toNat ≤ 0x10FE by decide) (fun k hk => absurd hk (Nat.not_lt_zero k.val)) rfl rfl

/-- Settles O54: reset leaves each of these states as it is. -/
theorem resetMeetsTheInvariant : Obligations.ResetMeetsTheInvariant :=
  ⟨inv_hostReset State.reset, fun font env => inv_hostReset { State.reset with mem := ⟨font, []⟩, env := env }⟩

/-- Every agent's transaction keeps the invariant. -/
theorem Inv.of_perform (h : Inv s) {tr : Transaction} (ht : perform tr s = .next t) : Inv t := by
  cases tr with
  | step keys rnd => exact h.of_coreStep ht
  | tick =>
    obtain rfl := Host.Outcome.next.inj ht
    exact h.congr h.memory rfl rfl rfl rfl rfl
  | load start bytes =>
    obtain rfl := Host.Outcome.next.inj ht
    exact inv_hostLoad h start bytes
  | reset =>
    obtain rfl := Host.Outcome.next.inj ht
    exact inv_hostReset s

/-- Settles O55: a step is a transaction, and each keeps the invariant. -/
theorem stepKeepsTheInvariant : Obligations.StepKeepsTheInvariant := by
  intro s t h ht
  obtain ⟨tr, rest, hstep⟩ := step_eq_perform s
  have hqueued : Inv (s.setEnv rest) := h.congr h.memory rfl rfl rfl rfl rfl
  exact hqueued.of_perform (hstep.symm.trans ht)

theorem Reachable.inv (h : Reachable s) : Inv s := by
  induction h with
  | start font env => exact resetMeetsTheInvariant.2 font env
  | next s t _ ht ih => exact stepKeepsTheInvariant s t ih ht

/-- Settles O56: each clause is one of the invariant. -/
theorem reachablePcNeverWraps : Obligations.ReachablePcNeverWraps := by
  intro s hs
  have h := hs.inv
  have hpc := h.pcBound
  refine ⟨hpc, by bv_omega, fun k hk => (h.entries k hk).2, ?_⟩
  by_cases hwait : s.wait = none
  · exact .inl hwait
  · exact .inr (h.waiting hwait).2

end Sys2Proof.Machine
end

section
/-! SUPPORT. What a reset leaves in memory and on the screen (R30, R120). -/

namespace Sys2Proof.Machine

/-- Memory nothing has written reads as FONT below 0x050. -/
theorem Memory.read_font (font : Vector Byte 80) (a : Fin 80) : (Memory.mk font []).read a.val = .ok font[a.val] := by
  rw [Memory.read_eq_ok_iff]
  exact ⟨a.isLt.trans (by decide), by simp [Memory.byteAt, lookupCell, Memory.unlisted]⟩

/-- Memory nothing has written reads as 0 from 0x050 on. -/
theorem Memory.read_aboveFont (font : Vector Byte 80) {a : Nat} (hlow : 0x050 ≤ a) (hhigh : a < memSize) :
    (Memory.mk font []).read a = .ok 0 := by
  rw [Memory.read_eq_ok_iff]
  exact ⟨hhigh, by simp [Memory.byteAt, lookupCell, Memory.unlisted, Nat.not_lt.mpr hlow]⟩

/-- Settles O52. -/
theorem resetGivesEveryPieceItsValue : Obligations.ResetGivesEveryPieceItsValue := by
  refine fun s => ⟨hostReset s, rfl, ?_, rfl, rfl, rfl, ?_, rfl, rfl, rfl, rfl, rfl, ?_, rfl, ?_, ?_, ?_⟩
  · exact fun r => Vector.getElem_replicate r.isLt
  · exact fun k => Vector.getElem_replicate k.isLt
  · exact fun c r => Framebuffer.isSet_clear c.val r.val
  · exact Memory.read_font s.mem.font
  · exact fun a => Memory.read_aboveFont s.mem.font
  · intro hfont
    rw [hostReset, hfont]
    rfl

end Sys2Proof.Machine
end

section
/-! SUPPORT. The decoder undoes the encoder (R34, R51, R52). -/

namespace Sys2Proof

/-- The decoder reads back every field the pattern of an instruction holds, and of the digits the pattern fixes takes the
arm that is the instruction's own (R51, R52). -/
theorem decodeWord_encode (i : Instr) : decodeWord (encode i) = some i := by
  cases i with
  | cls | ret => rfl
  | ldReg | orReg | andReg | xorReg | addReg | sub | shr | subn | shl => simp [encode, decodeWord, decodeArith]
  | ldFromDt | ldK | ldDt | ldSt | addI | ldF | ldB | ldStore | ldLoad => simp [encode, decodeWord, decodeMisc]
  | _ => simp [encode, decodeWord]

/-- Settles O2: the bytes are read back as the word they are laid out from, and the word decodes to its instruction. -/
theorem decodeOfEncodeIsTheInstruction : Obligations.DecodeOfEncodeIsTheInstruction := fun i rest => by
  rw [decode_wordBytes, decodeWord_encode]

end Sys2Proof
end

section
/-! SUPPORT. A core step by the two bytes at PC: the instruction they decode to, or the fault of the fetch (R34, R37, R56). -/

namespace Sys2Proof

theorem decodeWord_of_decode {hi lo : Byte} {i : Instr} (h : decode [hi, lo] = .ok (i, [])) :
    decodeWord (composeWord hi lo) = some i := by
  simp only [decode] at h
  cases hw : decodeWord (composeWord hi lo) with
  | none => simp [hw] at h
  | some j => simpa [hw] using h

end Sys2Proof

namespace Sys2Proof.Machine

variable {s : State}

theorem coreStep_of_idle (hfault : s.fault = none) (hwait : s.wait = none) (keys : Word) (rnd : Byte) :
    coreStep keys rnd s = fetchExecute (s.sample keys rnd) := by
  rw [coreStep, hfault, hwait]

theorem coreStep_of_decode {hi lo : Byte} {i : Instr} (hfault : s.fault = none) (hwait : s.wait = none)
    (hhi : s.mem.read s.pc.toNat = .ok hi) (hlo : s.mem.read (s.pc.toNat + 1) = .ok lo)
    (hdecode : decode [hi, lo] = .ok (i, [])) (keys : Word) (rnd : Byte) :
    coreStep keys rnd s = exec i (s.sample keys rnd).advance := by
  have hfetch : s.mem.readWord s.pc.toNat = .ok (composeWord hi lo) := by simp only [Memory.readWord, hhi, hlo]
  simp only [coreStep_of_idle hfault hwait, fetchExecute, State.sample_mem, State.sample_pc, hfetch, execute,
    decodeWord_of_decode hdecode]

theorem step_of_env_nil (henv : s.env = []) :
    step s = coreStep (Config.freeKeys s.samples) (Config.freeRandom s.samples) s := by
  rw [step, nextTransaction, henv]

/-- Settles O6: a queued step is the core step of its own inputs, and with nothing queued the inputs are the free ones. -/
theorem stepRunsTheDecodedInstruction : Obligations.StepRunsTheDecodedInstruction := by
  intro s hi lo i hfault hwait hhi hlo hdecode
  refine ⟨fun keys rnd rest henv => ?_, fun henv => ?_⟩
  · rw [step_of_env_cons henv]
    exact coreStep_of_decode (s := s.setEnv rest) hfault hwait hhi hlo hdecode keys rnd
  · rw [step_of_env_nil henv]
    exact coreStep_of_decode hfault hwait hhi hlo hdecode _ _

theorem coreStep_of_fetch_out (hfault : s.fault = none) (hwait : s.wait = none) (hout : memSize ≤ s.pc.toNat + 1)
    (keys : Word) (rnd : Byte) :
    coreStep keys rnd s = .next ((s.sample keys rnd).latch (.outOfRange (max s.pc.toNat memSize)) s.pc) := by
  simp only [coreStep_of_idle hfault hwait, fetchExecute, State.sample_mem, State.sample_pc, s.mem.readWord_of_ge hout]

/-- Settles O44: the step samples its inputs and latches the fault, and of PC and PC + 1 the lower out of range is the larger
of PC and 0x1000. -/
theorem fetchOutOfRangeTakesTheFault : Obligations.FetchOutOfRangeTakesTheFault := by
  intro s keys rnd hfault hwait hpc
  have haddr : max s.pc.toNat memSize = if s.pc.toNat = 0xFFF then 0x1000 else s.pc.toNat := by
    simp only [memSize]
    split <;> omega
  refine ⟨_, coreStep_of_fetch_out hfault hwait (by simp only [memSize]; omega) keys rnd, ?_, ?_⟩
  · rw [State.latch_fault, haddr]
  · have hsample := (changesOnly_sample s keys rnd).mono (allowed' := (· ∈ [.fault, .keys, .rnd, .samples]))
      (by simp +contextual)
    exact hsample.trans ((changesOnly_latch _ _ _).mono (by simp))

end Sys2Proof.Machine
end

section
/-! SUPPORT. What is read where a range was written, and the instructions and the host's load that write or read one (R42, R90,
R91, R92). -/

namespace Sys2Proof.Machine

theorem Memory.read_setBytes (m : Memory) {a j : Nat} {bs : List Byte} {b : Byte} (hfits : a + bs.length ≤ memSize)
    (hb : bs[j]? = some b) : (m.setBytes a bs).read (a + j) = .ok b := by
  obtain ⟨hj, -⟩ := List.getElem?_eq_some_iff.mp hb
  rw [Memory.read_eq_ok_iff, Memory.byteAt_setBytes]
  exact ⟨by omega, by simp [hb]⟩

/-- Settles O33. -/
theorem loadWritesAllOrNothing : Obligations.LoadWritesAllOrNothing := by
  refine fun start bytes s => ⟨fun hfits => ?_, fun hout => if_neg (Nat.not_le.mpr hout)⟩
  have hload : hostLoad start bytes s = (.ok, s.setMem (s.mem.setBytes start.toNat bytes)) := if_pos hfits
  rw [hload]
  exact ⟨rfl, fun j hj => s.mem.read_setBytes hfits (List.getElem?_eq_getElem hj), changesOnly_setBytes s _ _⟩

variable {s : State}

theorem exec_ldB_of_le (x : RegIndex) (hfits : s.i.toNat + 3 ≤ memSize) :
    exec (.ldB x) s = .next (s.setMem (s.mem.setBytes s.i.toNat (decimalDigits (s.reg x)))) :=
  congrArg Host.Outcome.next (s.storeBytes_of_le hfits)

theorem exec_ldStore_of_le (x : RegIndex) (hfits : s.i.toNat + (x.val + 1) ≤ memSize) :
    exec (.ldStore x) s = .next (s.setMem (s.mem.setBytes s.i.toNat (s.regsThrough x))) :=
  congrArg Host.Outcome.next (s.storeBytes_of_le (by simpa using hfits))

theorem exec_ldLoad_of_le (x : RegIndex) (hfits : s.i.toNat + (x.val + 1) ≤ memSize) :
    exec (.ldLoad x) s = .next (s.setRegs ((List.range' s.i.toNat (x.val + 1)).map s.mem.byteAt)) := by
  rcases execLdLoad_cases s x with ⟨-, hexec⟩ | ⟨hout, -⟩
  · exact hexec
  · omega

/-- The decimal digits of a byte are the one expansion with three digits of at most 9 (R90). -/
theorem decimalDigits_eq_iff {b h d u : Byte} :
    decimalDigits b = [h, d, u] ↔
      h.toNat ≤ 9 ∧ d.toNat ≤ 9 ∧ u.toNat ≤ 9 ∧ b.toNat = 100 * h.toNat + 10 * d.toNat + u.toNat := by
  have hb := b.isLt
  simp only [decimalDigits, List.cons.injEq, and_true, ← BitVec.toNat_inj, BitVec.toNat_ofNat]
  omega

/-- Settles O26. -/
theorem decimalDigitsAreStored : Obligations.DecimalDigitsAreStored := by
  intro x s hin
  have hfits : s.i.toNat + 3 ≤ memSize := hin
  obtain ⟨hh, hd, hu, hexpansion⟩ := decimalDigits_eq_iff.mp (rfl : decimalDigits (s.reg x) = _)
  exact ⟨_, exec_ldB_of_le x hfits,
    ⟨_, _, _, s.mem.read_setBytes (j := 0) hfits rfl, s.mem.read_setBytes (j := 1) hfits rfl,
      s.mem.read_setBytes (j := 2) hfits rfl, hh, hd, hu, hexpansion⟩,
    changesOnly_setBytes s s.i.toNat (decimalDigits (s.reg x))⟩

/-- Settles O27. -/
theorem registersAreStored : Obligations.RegistersAreStored := by
  intro x s hin
  have hfits : s.i.toNat + (x.val + 1) ≤ memSize := hin
  refine ⟨_, exec_ldStore_of_le x hfits, fun k hk => ?_, ?_⟩
  · exact s.mem.read_setBytes (by simpa using hfits) (s.getElem_regsThrough hk)
  · refine (changesOnly_setBytes s _ _).mono ?_
    rintro p ⟨k, hk, rfl⟩
    rw [State.length_regsThrough] at hk
    exact ⟨⟨k, by omega⟩, Nat.le_of_lt_succ hk, rfl⟩

theorem changesOnly_setRegs (s : State) (bs : List Byte) :
    ChangesOnly (∃ k : RegIndex, k.val < bs.length ∧ · = .reg k) s (s.setRegs bs) := by
  intro p hp
  cases p with
  | reg r => exact reg_setRegs_of_length_le (Nat.not_lt.mp fun hr => hp ⟨r, hr, rfl⟩)
  | _ => rfl

/-- Settles O28. -/
theorem registersAreLoaded : Obligations.RegistersAreLoaded := by
  intro x s hfits
  refine ⟨_, exec_ldLoad_of_le x hfits, fun k hk => ?_, ?_⟩
  · have hkx : k.val ≤ x.val := hk
    rw [Memory.read_eq_ok_iff]
    refine ⟨by simp only [memSize]; omega, ?_⟩
    simp [Nat.lt_succ_of_le hkx]
  · refine (changesOnly_setRegs s _).mono ?_
    rintro p ⟨k, hk, rfl⟩
    exact ⟨k, Nat.le_of_lt_succ (by simpa using hk), rfl⟩

/-! The next fetch after a store. -/

/-- A core step after a store runs the instruction of the bytes the store leaves at PC (R47, R124). -/
theorem coreStep_after_store {bytes : List Byte} {hi lo : Byte} {i : Instr} (hfits : s.i.toNat + bytes.length ≤ memSize)
    (hfault : s.fault = none) (hwait : s.wait = none) (hhi : ByteAfterStore s bytes s.pc.toNat hi)
    (hlo : ByteAfterStore s bytes (s.pc.toNat + 1) lo) (hdecode : decode [hi, lo] = .ok (i, [])) (keys : Word)
    (rnd : Byte) :
    coreStep keys rnd (s.setMem (s.mem.setBytes s.i.toNat bytes)) =
      exec i ((s.setMem (s.mem.setBytes s.i.toNat bytes)).sample keys rnd).advance :=
  coreStep_of_decode (s := s.setMem (s.mem.setBytes s.i.toNat bytes)) hfault hwait (read_of_byteAfterStore s hfits hhi)
    (read_of_byteAfterStore s hfits hlo) hdecode keys rnd

/-- The list of V0..Vx is determined by its length and its bytes (R91). -/
theorem State.regsThrough_eq {x : RegIndex} {bytes : List Byte} (hlen : bytes.length = x.val + 1)
    (hbytes : ∀ k : RegIndex, k ≤ x → bytes[k.val]? = some (s.reg k)) : s.regsThrough x = bytes := by
  refine List.ext_getElem? fun j => ?_
  by_cases hj : j < x.val + 1
  · have hjx : (⟨j, by omega⟩ : RegIndex) ≤ x := Nat.le_of_lt_succ hj
    exact (s.getElem_regsThrough hjx).trans (hbytes _ hjx).symm
  · rw [List.getElem?_eq_none (by simpa using hj), List.getElem?_eq_none (by omega)]

/-- Settles O31: in each clause the bytes are those the instruction stores. -/
theorem storedInstructionIsFetchedNext : Obligations.StoredInstructionIsFetchedNext := by
  intro s bytes hi lo keys rnd i hfits hfault hwait hhi hlo hdecode
  have hnext := coreStep_after_store hfits hfault hwait hhi hlo hdecode keys rnd
  refine ⟨fun x hlen hbytes => ?_, fun x h d u hbytes hh hd hu hexpansion => ?_⟩
  · obtain rfl := State.regsThrough_eq hlen hbytes
    exact ⟨_, exec_ldStore_of_le x (hlen ▸ hfits), hnext⟩
  · have hdigits := decimalDigits_eq_iff.mpr ⟨hh, hd, hu, hexpansion⟩
    obtain rfl := hdigits.trans hbytes.symm
    exact ⟨_, exec_ldB_of_le x hfits, hnext⟩

end Sys2Proof.Machine
end

section
/-! SUPPORT. The canonical form of memory: one form for each contents, kept by every transaction (R31, R39). -/

namespace Sys2Proof.Machine

/-- The cells of a rising list stand in the order of their addresses. -/
theorem cellsRise_pairwise {lo : Nat} {cells : List Host.Cell} (h : cellsRise lo cells = true) :
    (∀ c ∈ cells, lo ≤ c.1) ∧ cells.Pairwise (·.1 < ·.1) := by
  induction cells generalizing lo with
  | nil => exact ⟨nofun, .nil⟩
  | cons head cells ih =>
    simp only [cellsRise, Bool.and_eq_true, decide_eq_true_eq] at h
    obtain ⟨hlo, hrise⟩ := h
    obtain ⟨habove, hpairwise⟩ := ih hrise
    refine ⟨fun c hc => ?_, .cons habove hpairwise⟩
    rcases List.mem_cons.mp hc with rfl | hc
    · exact hlo
    · exact hlo.trans (Nat.le_of_succ_le (habove c hc))

theorem lookupCell_eq_some_iff {cells : List Host.Cell} (hrise : cells.Pairwise (·.1 < ·.1)) (a : Nat) (b : Byte) :
    lookupCell cells a = some b ↔ (a, b) ∈ cells := by
  induction hrise with
  | nil => simp [lookupCell]
  | @cons head cells habove _ ih =>
    obtain ⟨a', b'⟩ := head
    rw [lookupCell, List.mem_cons, Prod.mk.injEq]
    split
    next haddr =>
      subst haddr
      have hnot : (a', b) ∉ cells := fun hmem => Nat.lt_irrefl _ (habove (a', b) hmem)
      simp [hnot, eq_comm]
    next hne => rw [ih]; simp [Ne.symm hne]

/-- A canonical memory lists exactly the bytes that read as something else than they do unlisted. -/
theorem Memory.mem_cells_iff {m : Memory} (h : m.wf = true) (a : Nat) (b : Byte) :
    (a, b) ∈ m.cells ↔ m.read a = .ok b ∧ b ≠ m.unlisted a := by
  obtain ⟨hrise, hlisted⟩ := m.wf_iff.mp h
  rw [Memory.read_eq_ok_iff, Memory.byteAt, ← lookupCell_eq_some_iff (cellsRise_pairwise hrise).2]
  constructor
  · intro hb
    have hmem := (lookupCell_eq_some_iff (cellsRise_pairwise hrise).2 a b).mp hb
    exact ⟨⟨(hlisted _ hmem).1, by rw [hb]; rfl⟩, (hlisted _ hmem).2⟩
  · rintro ⟨⟨-, hb⟩, hne⟩
    cases hlookup : lookupCell m.cells a with
    | none => rw [hlookup] at hb; exact absurd hb.symm hne
    | some b' => rw [hlookup] at hb; exact congrArg some hb

/-- Rising lists with the same cells are equal. -/
theorem cells_ext {cells cells' : List Host.Cell} (hrise : cells.Pairwise (·.1 < ·.1))
    (hrise' : cells'.Pairwise (·.1 < ·.1)) (h : ∀ c, c ∈ cells ↔ c ∈ cells') : cells = cells' :=
  haveI : Std.Antisymm fun c c' : Host.Cell => c.1 < c'.1 := ⟨fun _ _ hlt hgt => absurd hgt (Nat.lt_asymm hlt)⟩
  haveI : Std.Irrefl fun c c' : Host.Cell => c.1 < c'.1 := ⟨fun c => Nat.lt_irrefl c.1⟩
  hrise.eq_of_mem_iff hrise' h

theorem Memory.ext_read {m m' : Memory} (hm : m.wf = true) (hm' : m'.wf = true) (hfont : m.font = m'.font)
    (hread : ∀ a, m.read a = m'.read a) : m = m' := by
  have hunlisted : ∀ a, m.unlisted a = m'.unlisted a := fun a => by rw [Memory.unlisted, Memory.unlisted, hfont]
  have hcells : m.cells = m'.cells :=
    cells_ext (cellsRise_pairwise (m.wf_iff.mp hm).1).2 (cellsRise_pairwise (m'.wf_iff.mp hm').1).2 fun (a, b) => by
      rw [Memory.mem_cells_iff hm, Memory.mem_cells_iff hm', hread, hunlisted]
  cases m
  cases m'
  exact congr (congrArg Memory.mk hfont) hcells

/-- A transition keeps memory in its canonical form, and the font. -/
def KeepsForm (s t : State) : Prop := s.mem.wf = true → t.mem.wf = true ∧ t.mem.font = s.mem.font

variable {s t : State}

theorem KeepsForm.of_mem_eq (h : t.mem = s.mem) : KeepsForm s t := fun hwf => ⟨h ▸ hwf, congrArg Memory.font h⟩

theorem keepsForm_setBytes (s : State) {a : Nat} {bs : List Byte} (hfits : a + bs.length ≤ memSize) :
    KeepsForm s (s.setMem (s.mem.setBytes a bs)) := fun hwf =>
  ⟨Memory.wf_setBytes hwf hfits, s.mem.setBytes_font a bs⟩

theorem Effect.keepsForm {i : Instr} (h : Effect s i t) : KeepsForm s t := by
  cases h with
  | store _ fits => exact keepsForm_setBytes s fits
  | _ => exact .of_mem_eq rfl

theorem keepsForm_of_execute {w : Word} (h : execute w s = .next t) : KeepsForm s t := by
  unfold execute at h
  split at h
  next i hw => exact (effect_of_exec h).keepsForm
  next hw =>
    obtain rfl := Host.Outcome.next.inj h
    exact .of_mem_eq rfl

theorem keyWaitPoll_mem (x : RegIndex) (s : State) : (keyWaitPoll x s).mem = s.mem := by
  rcases keyWaitPoll_cases s x with ⟨-, hpoll⟩ | ⟨k, -, -, hpoll⟩ <;> rw [hpoll] <;> rfl

theorem keepsForm_of_coreStep {keys : Word} {rnd : Byte} (h : coreStep keys rnd s = .next t) : KeepsForm s t := by
  rcases coreStep_cases s keys rnd with
    ⟨-, hstep⟩ | ⟨-, x, -, hstep⟩ | ⟨-, -, -, hstep⟩ | ⟨-, -, -, hstep⟩
  · obtain rfl := Host.Outcome.next.inj (hstep.symm.trans h)
    exact .of_mem_eq rfl
  · obtain rfl := Host.Outcome.next.inj (hstep.symm.trans h)
    exact .of_mem_eq (keyWaitPoll_mem x (s.sample keys rnd))
  · obtain rfl := Host.Outcome.next.inj (hstep.symm.trans h)
    exact .of_mem_eq rfl
  · exact keepsForm_of_execute (s := (s.sample keys rnd).advance) (hstep.symm.trans h)

theorem keepsForm_hostLoad (start : Word) (bytes : List Byte) (s : State) :
    KeepsForm s (hostLoad start bytes s).2 := by
  unfold hostLoad
  split
  next hfits => exact keepsForm_setBytes s hfits
  next => exact .of_mem_eq rfl

theorem keepsForm_of_perform {tr : Transaction} (h : perform tr s = .next t) : KeepsForm s t := by
  cases tr with
  | step keys rnd => exact keepsForm_of_coreStep h
  | tick =>
    obtain rfl := Host.Outcome.next.inj h
    exact .of_mem_eq rfl
  | load start bytes =>
    obtain rfl := Host.Outcome.next.inj h
    exact keepsForm_hostLoad start bytes s
  | reset =>
    obtain rfl := Host.Outcome.next.inj h
    exact fun _ => ⟨rfl, rfl⟩

/-- Settles O32: what reads differently from the reset contents is what is listed, and every transaction keeps the form. -/
theorem memoryIsDeterminedByItsReads : Obligations.MemoryIsDeterminedByItsReads := by
  refine ⟨fun _ _ => Memory.ext_read, fun s t hwf ht => ?_⟩
  obtain ⟨tr, rest, hstep⟩ := step_eq_perform s
  exact keepsForm_of_perform (s := s.setEnv rest) (hstep.symm.trans ht) hwf

end Sys2Proof.Machine
end

section
/-! SUPPORT. The encoder undoes the decoder: a word is its own fields put together again (R49, R51, R52). -/

namespace Sys2Proof

variable {w : Word} {op n : Nibble} {kk : Byte} {x y : RegIndex} {i : Instr}

theorem encodeNNN_of_fields (hop : opField w = op) : encodeNNN op (nnnField w) = w :=
  BitVec.eq_of_toNat_eq (by rw [← hop, encodeNNN_toNat, opField_toNat, nnnField_toNat]; omega)

theorem encodeXKK_of_fields (hop : opField w = op) (hkk : kkField w = kk) : encodeXKK op (xField w) kk = w :=
  BitVec.eq_of_toNat_eq (by rw [← hop, ← hkk, encodeXKK_toNat, opField_toNat, xField_val, kkField_toNat]; omega)

theorem encodeXYN_of_fields (hop : opField w = op) (hn : nField w = n) : encodeXYN op (xField w) (yField w) n = w :=
  BitVec.eq_of_toNat_eq (by
    rw [← hop, ← hn, encodeXYN_toNat, opField_toNat, xField_val, yField_val, nField_toNat]; omega)

theorem encode_of_decodeArith (h : decodeArith x y n = some i) : encode i = encodeXYN 0x8 x y n := by
  unfold decodeArith at h
  split at h <;> cases h <;> rfl

theorem encode_of_decodeMisc (h : decodeMisc x kk = some i) : encode i = encodeXKK 0xF x kk := by
  unfold decodeMisc at h
  split at h <;> cases h <;> rfl

/-- Settles O3. The decoder's arms (`h_1` is top digit 0, `h_16` top digit F) are grouped by the fields they read. -/
theorem encodeOfDecodeIsTheWord : Obligations.EncodeOfDecodeIsTheWord := by
  intro w i h
  unfold decodeWord at h
  split at h
  case h_1 =>
    split_ifs at h with hcls hret <;> cases h
    · exact hcls.symm
    · exact hret.symm
  case h_2 hop | h_3 hop | h_11 hop | h_12 hop =>
    cases h
    exact encodeNNN_of_fields hop
  case h_4 hop | h_5 hop | h_7 hop | h_8 hop | h_13 hop =>
    cases h
    exact encodeXKK_of_fields hop rfl
  case h_6 hop | h_10 hop =>
    split_ifs at h with hn
    cases h
    exact encodeXYN_of_fields hop hn
  case h_9 hop => exact (encode_of_decodeArith h).trans (encodeXYN_of_fields hop rfl)
  case h_14 hop =>
    cases h
    exact encodeXYN_of_fields hop rfl
  case h_15 hop =>
    split_ifs at h with hskp hsknp <;> cases h
    · exact encodeXKK_of_fields hop hskp
    · exact encodeXKK_of_fields hop hsknp
  case h_16 hop => exact (encode_of_decodeMisc h).trans (encodeXKK_of_fields hop rfl)
  case h_17 => cases h

/-- Settles O1. -/
theorem wordsDecodeAsTheTableSays : Obligations.WordsDecodeAsTheTableSays := by
  unfold Obligations.WordsDecodeAsTheTableSays
  decide

end Sys2Proof
end

section
/-! SUPPORT. The opcode table and the decoder: no word fits two rows, and the words that fit a row are those that decode (R51,
R53, R54). -/

namespace Sys2Proof

open Laws

variable {p q : Pattern} {w : Word} {i : Instr}

theorem Pattern.fits_iff : p.fits w = true ↔ w &&& p.mask = p.value := by simp [Pattern.fits]

/-- Two rows differ in a bit that both fix. -/
def Pattern.Differs (p q : Pattern) : Prop := p.value &&& q.mask ≠ q.value &&& p.mask

theorem Pattern.Differs.not_fits (h : p.Differs q) (hp : p.fits w = true) : ¬ q.fits w = true := by
  intro hq
  rw [Pattern.fits_iff] at hp hq
  exact h (by rw [← hp, ← hq, BitVec.and_assoc, BitVec.and_assoc, BitVec.and_comm p.mask])

theorem opcodePatterns_pairwise_differs : opcodePatterns.Pairwise Pattern.Differs := by
  unfold Pattern.Differs
  decide

/-- Settles O5: any two rows differ in a bit that both fix, and a word holds one value of it. -/
theorem noWordFitsTwoRows : Obligations.NoWordFitsTwoRows := by
  intro w
  have hdiffers := opcodePatterns_pairwise_differs.filter fun p => p.fits w
  have hfits : ∀ p ∈ opcodePatterns.filter fun p => p.fits w, p.fits w = true := fun p hp => (List.mem_filter.mp hp).2
  generalize (opcodePatterns.filter fun p => p.fits w) = fitting at hdiffers hfits ⊢
  match fitting with
  | [] | [_] => simp
  | p :: q :: _ =>
    have hpq : p.Differs q := List.rel_of_pairwise_cons hdiffers List.mem_cons_self
    exact absurd (hfits q (by simp)) (hpq.not_fits (hfits p (by simp)))

/-! A field the row fixes is the row's own in every word that fits it. -/

theorem extractLsb'_of_fits {start len : Nat} (h : p.fits w = true)
    (hmask : p.mask.extractLsb' start len = BitVec.allOnes len) :
    w.extractLsb' start len = p.value.extractLsb' start len := by
  rw [← Pattern.fits_iff.mp h, BitVec.extractLsb'_and, hmask, BitVec.and_allOnes]

theorem opField_of_fits (h : p.fits w = true) (hmask : opField p.mask = 0xF) : opField w = opField p.value :=
  extractLsb'_of_fits h hmask

theorem nField_of_fits (h : p.fits w = true) (hmask : nField p.mask = 0xF) : nField w = nField p.value :=
  extractLsb'_of_fits h hmask

theorem kkField_of_fits (h : p.fits w = true) (hmask : kkField p.mask = 0xFF) : kkField w = kkField p.value :=
  extractLsb'_of_fits h hmask

theorem eq_value_of_fits (h : p.fits w = true) (hmask : p.mask = BitVec.allOnes 16) : w = p.value := by
  rw [← Pattern.fits_iff.mp h, hmask, BitVec.and_allOnes]

/-- The fields an instruction's row fixes take the decoder to an arm that decodes. -/
theorem isSome_decodeWord_of_fits (h : i.pattern.fits w = true) : (decodeWord w).isSome = true := by
  cases i with simp only [Instr.pattern] at h
  | cls | ret => rw [eq_value_of_fits h rfl]; rfl
  | jp | call | seImm | sneImm | ldImm | addImm | ldI | jpV0 | rnd | drw => rw [decodeWord, opField_of_fits h rfl]; rfl
  | seReg | sneReg | ldReg | orReg | andReg | xorReg | addReg | sub | shr | subn | shl =>
    rw [decodeWord, opField_of_fits h rfl, nField_of_fits h rfl]; rfl
  | skp | sknp | ldFromDt | ldK | ldDt | ldSt | addI | ldF | ldB | ldStore | ldLoad =>
    rw [decodeWord, opField_of_fits h rfl, kkField_of_fits h rfl]; rfl

theorem pattern_fits_encode : (i : Instr) → i.pattern.fits (encode i) = true
  | .cls => EncodesRow.cls | .ret => EncodesRow.ret | .jp _ => EncodesRow.jp _ | .call _ => EncodesRow.call _
  | .seImm _ _ => EncodesRow.seImm _ _ | .sneImm _ _ => EncodesRow.sneImm _ _ | .seReg _ _ => EncodesRow.seReg _ _
  | .ldImm _ _ => EncodesRow.ldImm _ _ | .addImm _ _ => EncodesRow.addImm _ _ | .ldReg _ _ => EncodesRow.ldReg _ _
  | .orReg _ _ => EncodesRow.orReg _ _ | .andReg _ _ => EncodesRow.andReg _ _ | .xorReg _ _ => EncodesRow.xorReg _ _
  | .addReg _ _ => EncodesRow.addReg _ _ | .sub _ _ => EncodesRow.sub _ _ | .shr _ _ => EncodesRow.shr _ _
  | .subn _ _ => EncodesRow.subn _ _ | .shl _ _ => EncodesRow.shl _ _ | .sneReg _ _ => EncodesRow.sneReg _ _
  | .ldI _ => EncodesRow.ldI _ | .jpV0 _ => EncodesRow.jpV0 _ | .rnd _ _ => EncodesRow.rnd _ _
  | .drw _ _ _ => EncodesRow.drw _ _ _ | .skp _ => EncodesRow.skp _ | .sknp _ => EncodesRow.sknp _
  | .ldFromDt _ => EncodesRow.ldFromDt _ | .ldK _ => EncodesRow.ldK _ | .ldDt _ => EncodesRow.ldDt _
  | .ldSt _ => EncodesRow.ldSt _ | .addI _ => EncodesRow.addI _ | .ldF _ => EncodesRow.ldF _
  | .ldB _ => EncodesRow.ldB _ | .ldStore _ => EncodesRow.ldStore _ | .ldLoad _ => EncodesRow.ldLoad _

/-- The rows of the table are those of the instructions. -/
theorem mem_opcodePatterns_iff : p ∈ opcodePatterns ↔ ∃ i : Instr, i.pattern = p := by
  constructor
  · revert p
    simp only [opcodePatterns, List.forall_mem_append, List.forall_mem_cons, List.not_mem_nil, false_imp_iff,
      implies_true, and_true]
    and_intros <;> exact ⟨_, rfl⟩
  · rintro ⟨i, rfl⟩
    cases i <;> simp [opcodePatterns, Instr.pattern]

theorem wordWellFormed_iff : wordWellFormed w = true ↔ (decodeWord w).isSome = true := by
  rw [wordWellFormed, List.any_eq_true]
  constructor
  · rintro ⟨p, hmem, hfits⟩
    obtain ⟨i, rfl⟩ := mem_opcodePatterns_iff.mp hmem
    exact isSome_decodeWord_of_fits hfits
  · intro hsome
    obtain ⟨i, hi⟩ := Option.isSome_iff_exists.mp hsome
    exact ⟨i.pattern, mem_opcodePatterns_iff.mpr ⟨i, rfl⟩, encodeOfDecodeIsTheWord w i hi ▸ pattern_fits_encode i⟩

/-! Which digits a family of the decoder leaves without an instruction (R53). -/

theorem decodeArith_eq_none_iff {x y : RegIndex} {n : Nibble} :
    decodeArith x y n = none ↔ n.toNat ∈ [0x8, 0x9, 0xA, 0xB, 0xC, 0xD, 0xF] := by
  unfold decodeArith
  split
  case h_10 =>
    simp only [true_iff, List.mem_cons, List.not_mem_nil, or_false, imp_false, ← BitVec.toNat_inj, BitVec.toNat_ofNat,
      Nat.reducePow, Nat.reduceMod] at *
    omega
  all_goals simp

theorem decodeMisc_eq_none_iff {x : RegIndex} {kk : Byte} :
    decodeMisc x kk = none ↔ kk.toNat ∉ [0x07, 0x0A, 0x15, 0x18, 0x1E, 0x29, 0x33, 0x55, 0x65] := by
  unfold decodeMisc
  split
  case h_10 => simp_all [← BitVec.toNat_inj]
  all_goals simp

theorem ite_some_eq_none_iff {α : Type} {c : Prop} [Decidable c] {a : α} {o : Option α} :
    (if c then some a else o) = none ↔ ¬ c ∧ o = none := by
  split_ifs with h <;> simp [h]

/-- Settles O4: each top digit leaves of the list the one clause that says which digits its arm of the decoder takes. -/
theorem invalidWordsAreExactlyThoseListed : Obligations.InvalidWordsAreExactlyThoseListed := by
  refine fun w => ⟨?_, ?_⟩
  · unfold decodeWord
    split
    case h_17 =>
      simp only [imp_false, ← BitVec.toNat_inj, opField_toNat, BitVec.toNat_ofNat, Nat.reducePow, Nat.reduceMod] at *
      omega
    all_goals
      next hop =>
        have htop := (opField_toNat w).symm.trans (congrArg BitVec.toNat hop)
        simp [htop, ← BitVec.toNat_inj, ite_some_eq_none_iff, decodeArith_eq_none_iff, decodeMisc_eq_none_iff]
  · rw [← Option.not_isSome_iff_eq_none, ← wordWellFormed_iff, Bool.not_eq_true]

end Sys2Proof
end

section
/-! SUPPORT. The shifts, a word that encodes no instruction, and the skips on a key (R53, R71, R72, R74, R83, R85). -/

namespace Sys2Proof.Machine

variable {s : State}

theorem State.reg_setFlagThenReg (s : State) (flag : Byte) (x : RegIndex) (result : Byte) :
    (s.setFlagThenReg flag x result).reg x = result := by
  simp [State.setFlagThenReg]

/-- VF holds the flag unless it is the destination, which is written last (R74, D8). -/
theorem State.flag_setFlagThenReg (s : State) (flag : Byte) {x : RegIndex} (result : Byte) (hx : x ≠ 15) :
    (s.setFlagThenReg flag x result).reg 15 = flag := by
  simp [State.setFlagThenReg, flagReg, hx.symm]

/-- Settles O22. -/
theorem shiftsPutTheBitShiftedOutInVf : Obligations.ShiftsPutTheBitShiftedOutInVf := by
  refine fun x y s => ⟨⟨_, rfl, fun b _ => ?_, fun hx => ?_, changesOnly_setFlagThenReg s _ _ x⟩,
    ⟨_, rfl, ?_, fun b hb => ?_, fun hx => ?_, changesOnly_setFlagThenReg s _ _ x⟩, fun _ => ⟨rfl, rfl⟩⟩
  · rw [State.reg_setFlagThenReg, shiftRight_getLsbD]
  · rw [State.flag_setFlagThenReg s _ _ hx, lowBitFlag, flagByte_toNat]
  · rw [State.reg_setFlagThenReg, shiftLeft_getLsbD_zero]
  · rw [State.reg_setFlagThenReg, shiftLeft_getLsbD _ _ hb]
  · rw [State.flag_setFlagThenReg s _ _ hx, highBitFlag, flagByte_toNat]

theorem State.HasWord.readWord {a : Nat} {w : Word} (h : s.HasWord a w) : s.mem.readWord a = .ok w := by
  obtain ⟨hi, lo, hhi, hlo, hw⟩ := h
  have hcompose : composeWord hi lo = w := BitVec.eq_of_toNat_eq (by rw [composeWord_toNat, hw])
  simp only [Memory.readWord, hhi, hlo, hcompose]

theorem coreStep_of_invalid {w : Word} (hfault : s.fault = none) (hwait : s.wait = none)
    (hword : s.HasWord s.pc.toNat w) (hinvalid : decodeWord w = none) (keys : Word) (rnd : Byte) :
    coreStep keys rnd s = .next ((s.sample keys rnd).advance.raise (.invalidOpcode w)) := by
  simp only [coreStep_of_idle hfault hwait, fetchExecute, State.sample_mem, State.sample_pc, hword.readWord, execute,
    hinvalid]

/-- Settles O45: the step samples its inputs, advances PC and raises the fault, whose address PC - 2 is PC before. -/
theorem invalidWordTakesTheFault : Obligations.InvalidWordTakesTheFault := by
  intro s keys rnd w hfault hwait hword hinvalid
  refine ⟨_, coreStep_of_invalid hfault hwait hword hinvalid keys rnd, ?_, rfl, ?_⟩
  · simp [State.raise]
  · have hsample := (changesOnly_sample s keys rnd).mono (allowed' := (· ∈ [.fault, .pc, .keys, .rnd, .samples]))
      (by simp +contextual)
    have hadvance := hsample.trans ((changesOnly_advance _).mono (by simp))
    exact hadvance.trans ((changesOnly_raise _ _).mono (by simp))

/-- Settles O17: the condition of the skip is that the key is held, or that it is not. -/
theorem skipsOnAKey : Obligations.SkipsOnAKey := by
  intro x s
  simp only [← keyHeld_iff, Bool.not_eq_true]
  refine ⟨⟨_, rfl, fun held => ?_, fun free => ?_, changesOnly_skipIf s _⟩,
    ⟨_, rfl, fun held => ?_, fun free => ?_, changesOnly_skipIf s _⟩⟩
  · simp [skipIf_pc, held]
  · simp [skipIf_pc, free]
  · simp [skipIf_pc, held]
  · simp [skipIf_pc, free]

end Sys2Proof.Machine
end

section
/-! SUPPORT. The jumps, calls nested and paired with returns, and a block parked at a jump to itself (R61..R65, R123). -/

namespace Sys2Proof.Machine

variable {s t : State}

/-- Settles O9. -/
theorem jumpSetsPc : Obligations.JumpSetsPc := fun nnn s =>
  ⟨s.setPc (zextAddr nnn), rfl, zextAddr_toNat nnn, changesOnly_setPc s _⟩

/-- Settles O10. -/
theorem jumpWithOffsetAddsV0 : Obligations.JumpWithOffsetAddsV0 := fun nnn s =>
  ⟨s.setPc (jumpOffset nnn (s.reg 0)), rfl, jumpOffset_toNat nnn _, changesOnly_setPc s _⟩

/-- Settles O13: the call makes entry `k` live and stores PC in it, and the return pops entry `k`. -/
theorem returnAfterCallRestoresPcAndSp : Obligations.ReturnAfterCallRestoresPcAndSp := by
  refine fun nnn s k free => ⟨_, exec_call_of_free free nnn, fun u hsp hentry => ?_⟩
  have live : u.sp.val = k.val + 1 := congrArg Fin.val hsp
  have hreturn : u.stack[k.val] = s.pc := hentry.trans ((s.setEntry_getElem k k s.pc).trans (if_pos rfl))
  exact ⟨_, exec_ret_of_live live, hreturn, Fin.ext free.symm⟩

/-! Nested calls. -/

theorem execAll_cons_of_next {i : Instr} (h : exec i s = .next t) (is : List Instr) :
    execAll (i :: is) s = execAll is t := by
  rw [execAll, h]

/-- Calls for which entries are free raise SP by one each and take no fault (R63). -/
theorem execAll_calls_of_free (targets : List Addr) (s : State) (free : s.sp.val + targets.length ≤ 16) :
    ∃ t, execAll (targets.map Instr.call) s = .next t ∧ t.sp.val = s.sp.val + targets.length ∧ t.fault = s.fault := by
  induction targets generalizing s with
  | nil => exact ⟨s, rfl, rfl, rfl⟩
  | cons nnn targets ih =>
    rw [List.length_cons] at free ⊢
    obtain ⟨k, hk⟩ : ∃ k : Fin 16, s.sp.val = k.val := ⟨⟨s.sp.val, by omega⟩, rfl⟩
    have hnext : k.val + 1 + targets.length ≤ 16 := by omega
    obtain ⟨t, hrest, hsp, hfault⟩ := ih (((s.setEntry k s.pc).setSp k.succ).setPc (zextAddr nnn)) hnext
    have hcount : t.sp.val = k.val + 1 + targets.length := hsp
    exact ⟨t, (execAll_cons_of_next (exec_call_of_free hk nnn) _).trans hrest, by omega, hfault⟩

/-- Settles O14: the 16 calls fill the stack, and a call with a full stack raises its fault. -/
theorem seventeenthNestedCallOverflows : Obligations.SeventeenthNestedCallOverflows := by
  intro targets s hlength hempty
  obtain ⟨t, hcalls, hsp, hfault⟩ := execAll_calls_of_free targets s (by omega)
  have full : t.sp.val = 16 := by omega
  exact ⟨t, hcalls, full, hfault, fun nnn => (Raises.call nnn full).takesFault⟩

/-! A block parked at a jump to itself. -/

/-- What may change while the block is parked: the timers and the recorded inputs (R123). -/
def ParkedChanges (p : Part) : Prop := p ∈ [.dt, .st, .keys, .rnd, .samples]

/-- PARKED is about the parts outside `ParkedChanges`. -/
theorem Parked.of_changesOnly {e : Addr} (h : Parked e s) (hframe : ChangesOnly ParkedChanges s t) : Parked e t := by
  obtain ⟨hfault, hwait, hpc, hrange, hhi, hlo⟩ := h
  have hpcKept : t.pc = s.pc := hframe .pc (by simp [ParkedChanges])
  have hfaultKept : t.fault = s.fault := hframe .fault (by simp [ParkedChanges])
  have hwaitKept : t.wait = s.wait := hframe .wait (by simp [ParkedChanges])
  have hread : ∀ a, t.mem.read a = s.mem.read a := fun a => hframe (.byte a) (by simp [ParkedChanges])
  exact ⟨hfaultKept.trans hfault, hwaitKept.trans hwait, hpcKept ▸ hpc, hrange, (hread _).trans hhi,
    (hread _).trans hlo⟩

/-- The bytes of PARKED are those of `1eee`. -/
theorem wordBytes_encode_jp (e : Addr) :
    wordBytes (encode (.jp e)) = [0x10 ||| BitVec.ofNat 8 (e.toNat / 256), BitVec.ofNat 8 (e.toNat % 256)] := by
  have hword : (encode (.jp e)).toNat = 4096 + e.toNat := encodeNNN_toNat 0x1 e
  have hdigit : e.toNat / 256 < 2 ^ 4 := by omega
  have hhi : (0x10 ||| BitVec.ofNat 8 (e.toNat / 256)).toNat = 16 + e.toNat / 256 := by
    rw [BitVec.toNat_or, BitVec.toNat_ofNat, Nat.mod_eq_of_lt (by omega)]
    exact (Nat.two_pow_add_eq_or_of_lt hdigit 1).symm
  simp only [wordBytes, List.cons.injEq, and_true, ← BitVec.toNat_inj, BitVec.extractLsb'_toNat, hhi,
    BitVec.toNat_ofNat, Nat.shiftRight_eq_div_pow, hword]
  omega

/-- A parked step is the jump to PC itself: it undoes the fetch's advance. -/
theorem coreStep_of_parked {e : Addr} (h : Parked e s) (keys : Word) (rnd : Byte) :
    coreStep keys rnd s = .next (s.sample keys rnd) := by
  obtain ⟨hfault, hwait, hpc, -, hhi, hlo⟩ := h
  have hdecode := decodeOfEncodeIsTheInstruction (.jp e) []
  rw [wordBytes_encode_jp, List.append_nil] at hdecode
  have htarget : zextAddr e = s.pc := BitVec.eq_of_toNat_eq ((zextAddr_toNat e).trans hpc.symm)
  rw [coreStep_of_decode hfault hwait (hpc ▸ hhi) (hpc ▸ hlo) hdecode keys rnd, exec, execJp, htarget]
  rfl

theorem changesOnly_tick (s : State) : ChangesOnly (· ∈ [.dt, .st]) s (tick s) :=
  ((changesOnly_setDt s _).mono (by simp)).trans ((changesOnly_setSt _ _).mono (by simp))

/-- A step or a tick of a parked block changes only the timers and the recorded inputs. -/
theorem Parked.perform {e : Addr} (h : Parked e s) {tr : Transaction}
    (htr : tr = .tick ∨ ∃ keys rnd, tr = .step keys rnd) :
    ∃ t, perform tr s = .next t ∧ ChangesOnly ParkedChanges s t := by
  rcases htr with rfl | ⟨keys, rnd, rfl⟩
  · exact ⟨tick s, rfl, (changesOnly_tick s).mono (by simp +contextual [ParkedChanges])⟩
  · exact ⟨_, coreStep_of_parked h keys rnd,
      (changesOnly_sample s keys rnd).mono (by simp +contextual [ParkedChanges])⟩

theorem performAll_cons_of_next {tr : Transaction} (h : perform tr s = .next t) (ts : List Transaction) :
    performAll (tr :: ts) s = performAll ts t := by
  rw [performAll, h]

/-- Settles O53, by induction on the transactions: what changes leaves the block parked. -/
theorem parkedStaysParked : Obligations.ParkedStaysParked := by
  intro e ts s hparked hts
  induction ts generalizing s with
  | nil => exact ⟨s, rfl, hparked, ChangesOnly.refl _ s⟩
  | cons tr ts ih =>
    obtain ⟨htr, hrest⟩ := List.forall_mem_cons.mp hts
    obtain ⟨t, hfirst, hframe⟩ := hparked.perform htr
    obtain ⟨u, hall, hend, hframes⟩ := ih t (hparked.of_changesOnly hframe) hrest
    exact ⟨u, (performAll_cons_of_next hfirst ts).trans hall, hend, hframe.trans hframes⟩

end Sys2Proof.Machine
end

section
/-! SUPPORT. The skips on an immediate and on two registers (R66..R70). -/

namespace Sys2Proof.Machine

/-- What a skip on a condition does: PC advances by a further 2 where it holds, and nothing else changes (R66). -/
theorem completes_skip {i : Instr} {s : State} {c : Bool} {condition : Prop} [Decidable condition]
    (hexec : exec i s = .next (s.skipIf c)) (hc : c = true ↔ condition) :
    Completes i s fun t => t.pc = (if condition then s.pc + 2 else s.pc) ∧ ChangesOnly (· = .pc) s t :=
  ⟨s.skipIf c, hexec, (skipIf_pc s c).trans (if_congr hc rfl rfl), changesOnly_skipIf s c⟩

/-- Settles O15. -/
theorem skipsOnAnImmediate : Obligations.SkipsOnAnImmediate := fun _ _ _ =>
  ⟨completes_skip rfl beq_iff_eq, completes_skip rfl bne_iff_ne⟩

/-- Settles O16. -/
theorem skipsOnTwoRegisters : Obligations.SkipsOnTwoRegisters := fun _ _ _ =>
  ⟨completes_skip rfl beq_iff_eq, completes_skip rfl bne_iff_ne⟩

end Sys2Proof.Machine
end

section
/-! SUPPORT. The register loads, the bitwise operations, the addition and the subtractions (R73..R82, R84). -/

namespace Sys2Proof.Machine

variable {i : Instr} {s : State} {x : RegIndex}

/-- An instruction that writes Vx alone does what its result says, and changes no other register, VF among them. -/
theorem completes_setReg {b : Byte} {described : State → Prop} (hexec : exec i s = .next (s.setReg x b))
    (hresult : ∀ t : State, t.reg x = b → described t) :
    Completes i s fun t => described t ∧ ChangesOnly (· = .reg x) s t :=
  ⟨s.setReg x b, hexec, hresult _ (by rw [State.reg_setReg, if_pos rfl]), changesOnly_setReg s x b⟩

/-- Settles O18. -/
theorem loadAndAddImmediate : Obligations.LoadAndAddImmediate := fun _ _ _ =>
  ⟨completes_setReg rfl fun _ h => h, completes_setReg rfl fun _ h => by rw [h, addMod_toNat]⟩

/-- Settles O19. -/
theorem copyAndBitwiseOperations : Obligations.CopyAndBitwiseOperations := fun _ _ _ =>
  ⟨completes_setReg rfl fun _ h => h,
    completes_setReg rfl fun _ h _ => by rw [h, BitVec.getLsbD_or],
    completes_setReg rfl fun _ h _ => by rw [h, BitVec.getLsbD_and],
    completes_setReg rfl fun _ h _ => by rw [h, BitVec.getLsbD_xor]⟩

theorem carryFlag_toNat (a b : Byte) : (carryFlag a b).toNat = if a.toNat + b.toNat > 255 then 1 else 0 := by
  rw [carryFlag, flagByte_toNat]; simp only [decide_eq_true_eq]

theorem notBorrowFlag_toNat (a b : Byte) : (notBorrowFlag a b).toNat = if a.toNat ≥ b.toNat then 1 else 0 := by
  rw [notBorrowFlag, flagByte_toNat]; simp only [decide_eq_true_eq]

/-- An instruction that writes a flag and then its result (R74): Vx holds the result, and VF the flag unless x = 0xF (D8). -/
theorem completes_setFlagThenReg {flag result : Byte} {n f : Nat}
    (hexec : exec i s = .next (s.setFlagThenReg flag x result)) (hresult : result.toNat = n) (hflag : flag.toNat = f) :
    Completes i s fun t =>
      (t.reg x).toNat = n ∧ (x ≠ 15 → (t.reg 15).toNat = f) ∧ ChangesOnly (· ∈ [.reg x, .reg 15]) s t :=
  ⟨s.setFlagThenReg flag x result, hexec, by rw [State.reg_setFlagThenReg, hresult],
    fun hx => by rw [State.flag_setFlagThenReg s flag result hx, hflag], changesOnly_setFlagThenReg s flag result x⟩

/-- Settles O20. -/
theorem addRegistersWithCarry : Obligations.AddRegistersWithCarry := fun _ _ _ =>
  completes_setFlagThenReg rfl (addMod_toNat _ _) (carryFlag_toNat _ _)

/-- Settles O21. -/
theorem subtractRegistersWithNotBorrow : Obligations.SubtractRegistersWithNotBorrow := fun _ _ _ =>
  ⟨completes_setFlagThenReg rfl (subMod_toNat _ _) (notBorrowFlag_toNat _ _),
    completes_setFlagThenReg rfl (subMod_toNat _ _) (notBorrowFlag_toNat _ _)⟩

end Sys2Proof.Machine
end

section
/-! SUPPORT. The instructions that write I alone, and a load of the registers after their store (R87, R88, R89, R91, R92). -/

namespace Sys2Proof.Machine

/-- Settles O30: the load reads, from the same memory at the same I, the bytes the store left there. -/
theorem loadAfterStoreRestoresTheRegisters : Obligations.LoadAfterStoreRestoresTheRegisters := by
  intro x s hin
  obtain ⟨t, hstore, hstored, -⟩ := registersAreStored x s hin
  refine ⟨t, hstore, fun u hmem hi => ?_⟩
  obtain ⟨w, hload, hloaded, -⟩ := registersAreLoaded x u (hi ▸ hin)
  refine ⟨w, hload, fun k hk => ?_⟩
  have hsame : u.mem.read (u.i.toNat + k.val) = t.mem.read (s.effectiveAddress k.val) := by
    rw [hmem, hi, State.effectiveAddress]
  exact Except.ok.inj ((hloaded k hk).symm.trans (hsame.trans (hstored k hk)))

/-- An instruction that writes I alone leaves its value there, and changes nothing else, VF among it. -/
theorem completes_setI {i : Instr} {s : State} {a : Word} {n : Nat} (hexec : exec i s = .next (s.setI a))
    (hvalue : a.toNat = n) : Completes i s fun t => t.i.toNat = n ∧ ChangesOnly (· = .i) s t :=
  ⟨s.setI a, hexec, hvalue, changesOnly_setI s a⟩

/-- Settles O25. -/
theorem addressRegisterInstructions : Obligations.AddressRegisterInstructions :=
  ⟨fun _ _ => completes_setI rfl (zextAddr_toNat _),
    fun _ _ => ⟨completes_setI rfl (addIndex_toNat _ _), completes_setI rfl (glyphAddress_toNat _)⟩⟩

end Sys2Proof.Machine
end

section
/-! SUPPORT. The display instructions: a sprite's cells as `SpriteCovers` names them, and what one draw and two draws leave
(R94, R95, R96). -/

namespace Sys2Proof.Machine

/-- Settles O34. -/
theorem clearUnsetsEveryPixel : Obligations.ClearUnsetsEveryPixel := fun s =>
  ⟨s.setFb Framebuffer.clear, rfl, fun c r => Framebuffer.isSet_clear c.val r.val, changesOnly_setFb s _⟩

/-- The rows of a sprite in range are what MEM reads as, row by row (R96). -/
theorem Memory.getElem?_map_byteAt_eq_some_iff (m : Memory) {a n : Nat} (hfits : n = 0 ∨ a + n ≤ memSize) (k : Nat)
    (b : Byte) : ((List.range' a n).map m.byteAt)[k]? = some b ↔ k < n ∧ m.read (a + k) = .ok b := by
  rw [Memory.read_eq_ok_iff, List.getElem?_map]
  by_cases hk : k < n
  · have hin : a + k < memSize := by omega
    simp [hk, hin]
  · rw [List.getElem?_eq_none (by simpa using hk)]
    simp [hk]

variable {s t : State} {x y : RegIndex} {n : Nibble}

/-- The cells a draw's rows cover are the pixels its sprite sets a bit for, wrapped (R94, R96). -/
theorem rowsCover_iff_spriteCovers (hfits : n = 0 ∨ s.i.toNat + n.toNat ≤ memSize) (c r : Nat) :
    RowsCover (s.reg x).toNat (s.reg y).toNat ((List.range' s.i.toNat n.toNat).map s.mem.byteAt) c r ↔
      SpriteCovers s x y n.toNat (c % 64) (r % 32) := by
  have hfits' : n.toNat = 0 ∨ s.i.toNat + n.toNat ≤ memSize := hfits.imp_left fun h => by rw [h]; rfl
  rw [rowsCover_iff, SpriteCovers]
  simp only [s.mem.getElem?_map_byteAt_eq_some_iff hfits']
  constructor
  · rintro ⟨k, j, b, ⟨hk, hread⟩, hj, hbit, hc, hr⟩
    exact ⟨k, j, b, hk, hj, hread, hbit, hc, hr⟩
  · rintro ⟨k, j, b, hk, hj, hread, hbit, hc, hr⟩
    exact ⟨k, j, b, ⟨hk, hread⟩, hj, hbit, hc, hr⟩

/-- A statement of one cell, made through its wrapped coordinates, holds of some coordinates exactly when it holds of some
pixel (R93). -/
theorem exists_wrapped_iff {p : Nat → Nat → Prop} :
    (∃ c r, p (c % 64) (r % 32)) ↔ ∃ (c : Fin 64) (r : Fin 32), p c.val r.val := by
  constructor
  · rintro ⟨c, r, h⟩
    exact ⟨⟨c % 64, Nat.mod_lt c (by decide)⟩, ⟨r % 32, Nat.mod_lt r (by decide)⟩, h⟩
  · rintro ⟨c, r, h⟩
    exact ⟨c.val, r.val, by rwa [Nat.mod_eq_of_lt c.isLt, Nat.mod_eq_of_lt r.isLt]⟩

theorem flagByte_eq_zero_or_one (b : Bool) : flagByte b = 0 ∨ flagByte b = 1 := by cases b <;> decide

theorem flagByte_eq_one_iff (b : Bool) : flagByte b = 1 ↔ b = true := by cases b <;> decide

/-- Settles O35: the draw's laws, said of its cells by row and column, say it of the pixels. -/
theorem drawInvertsTheSpritesPixels : Obligations.DrawInvertsTheSpritesPixels := by
  intro x y n s hfits
  rcases execDrw_cases s x y n with ⟨-, drawn, draws, hexec⟩ | ⟨hn, hout, -⟩
  case inr => exact absurd hfits (not_or.mpr ⟨hn, Nat.not_le.mpr hout⟩)
  have hcovers : ∀ (c : Fin 64) (r : Fin 32), RowsCover (s.reg x).toNat (s.reg y).toNat
      ((List.range' s.i.toNat n.toNat).map s.mem.byteAt) c.val r.val ↔ SpriteCovers s x y n.toNat c.val r.val := by
    intro c r
    rw [rowsCover_iff_spriteCovers hfits, Nat.mod_eq_of_lt c.isLt, Nat.mod_eq_of_lt r.isLt]
  have hflag : ((s.setFb drawn.1).setReg flagReg (flagByte drawn.2)).reg 15 = flagByte drawn.2 :=
    (State.reg_setReg _ flagReg 15 _).trans (if_pos rfl)
  refine ⟨_, hexec, fun c r => ⟨fun h => ?_, fun h => ?_⟩, ?_, ?_, ?_⟩
  · exact draws.inverted c r ((hcovers c r).mpr h)
  · exact draws.kept c r (mt (hcovers c r).mp h)
  · rw [hflag]
    exact flagByte_eq_zero_or_one drawn.2
  · rw [hflag, flagByte_eq_one_iff, draws.collision,
      ← exists_wrapped_iff (p := fun c r => SpriteCovers s x y n.toNat c r ∧ s.fb.isSet c r = true)]
    simp [rowsCover_iff_spriteCovers hfits, Framebuffer.isSet_mod]
  · exact ((changesOnly_setFb s drawn.1).mono fun _ => .inr).trans
      ((changesOnly_setReg _ flagReg _).mono fun _ => .inl)

/-- A state in which only VF and pixels differ has the same sprite at the same place, unless a coordinate is in VF. -/
theorem spriteCovers_of_changesOnly (hx : x ≠ 15) (hy : y ≠ 15)
    (h : ChangesOnly (fun p => p = .reg 15 ∨ ∃ c r, p = .pixel c r) s t) (n c r : Nat) :
    SpriteCovers t x y n c r ↔ SpriteCovers s x y n c r := by
  have hi : t.i = s.i := h .i (by simp)
  have hmem : ∀ a, t.mem.read a = s.mem.read a := fun a => h (.byte a) (by simp)
  have hregx : t.reg x = s.reg x := h (.reg x) (by simpa using hx)
  have hregy : t.reg y = s.reg y := h (.reg y) (by simpa using hy)
  simp only [SpriteCovers, hi, hmem, hregx, hregy]

/-- A row that is not 0 sets a bit for one of its eight columns (R94). -/
theorem exists_spriteBit_of_ne_zero {b : Byte} (hb : b ≠ 0) : ∃ j, j < 8 ∧ b.getLsbD (7 - j) = true := by
  by_contra hnone
  refine hb (BitVec.eq_of_getLsbD_eq fun i hi => ?_)
  have hbit : b.getLsbD (7 - (7 - i)) ≠ true := fun h => hnone ⟨7 - i, by omega, h⟩
  rw [Nat.sub_sub_self (Nat.le_of_lt_succ hi)] at hbit
  simpa using hbit

/-- A sprite with a row that is not 0 covers a pixel. -/
theorem exists_spriteCovers_of_row_ne_zero (x y : RegIndex) {n k : Nat} {b : Byte} (hk : k < n)
    (hread : s.mem.read (s.i.toNat + k) = .ok b) (hb : b ≠ 0) :
    ∃ (c : Fin 64) (r : Fin 32), SpriteCovers s x y n c.val r.val := by
  obtain ⟨j, hj, hbit⟩ := exists_spriteBit_of_ne_zero hb
  exact exists_wrapped_iff.mp ⟨_, _, k, j, b, hk, hj, hread, hbit, rfl, rfl⟩

/-- Settles O36: the second draw covers the pixels of the first, and finds each of them inverted. -/
theorem drawingTwiceRestoresThePixels : Obligations.DrawingTwiceRestoresThePixels := by
  intro x y n s hx hy hfits
  obtain ⟨t, hfirst, hpixels, -, -, hframe⟩ := drawInvertsTheSpritesPixels x y n s hfits
  have hi : t.i = s.i := hframe .i (by simp)
  have hcovers := spriteCovers_of_changesOnly hx hy hframe n.toNat
  obtain ⟨u, hsecond, hpixels', -, hflag, -⟩ := drawInvertsTheSpritesPixels x y n t (hi ▸ hfits)
  have hflag' : u.reg 15 = 1 ↔ ∃ (c : Fin 64) (r : Fin 32),
      SpriteCovers s x y n.toNat c.val r.val ∧ s.fb.isSet c.val r.val = false := by
    rw [hflag]
    refine exists_congr fun c => exists_congr fun r => ?_
    rw [hcovers]
    refine and_congr_right fun hc => ?_
    rw [(hpixels c r).1 hc, Bool.not_eq_true']
  refine ⟨t, hfirst, u, hsecond, fun c r => ?_, hflag', ?_⟩
  · by_cases hc : SpriteCovers s x y n.toNat c.val r.val
    · rw [(hpixels' c r).1 ((hcovers _ _).mpr hc), (hpixels c r).1 hc, Bool.not_not]
    · rw [(hpixels' c r).2 (mt (hcovers _ _).mp hc), (hpixels c r).2 hc]
  · rintro ⟨k, b, hk, hread, hb⟩ hunset
    obtain ⟨c, r, hc⟩ := exists_spriteCovers_of_row_ne_zero x y hk hread hb
    exact hflag'.mpr ⟨c, r, hc, hunset c r⟩

end Sys2Proof.Machine
end

section
/-! SUPPORT. The timers' instructions, and a key wait through transactions that supply no press (R97, R98, R99, R101, R119,
R123). -/

namespace Sys2Proof.Machine

variable {s : State}

/-- Settles O37. -/
theorem delayTimerIsReadAndSet : Obligations.DelayTimerIsReadAndSet := fun x s =>
  ⟨completes_setReg rfl fun _ h => h, s.setDt (s.reg x), rfl, rfl, changesOnly_setDt s _⟩

theorem soundActive_iff : soundActive s = true ↔ s.st.toNat ≠ 0 := by
  simp [soundActive, BitVec.toNat_eq]

/-- Settles O38. -/
theorem soundTimerIsSet : Obligations.SoundTimerIsSet := fun x s =>
  ⟨s.setSt (s.reg x), rfl, rfl, soundActive_iff, changesOnly_setSt s _⟩

/-! A key wait without a press. -/

/-- What may change while a key wait is supplied no press: its reference sample, the timers, memory and the recorded inputs
(R101, R119). -/
def WaitChanges (p : Part) : Prop := p ∈ [.kprev, .dt, .st, .keys, .rnd, .samples] ∨ ∃ a, p = .byte a

/-- FAULT, WAIT and the queue are outside `WaitChanges`. -/
theorem kept_of_waitChanges {t : State} (h : ChangesOnly WaitChanges s t) :
    t.fault = s.fault ∧ t.wait = s.wait ∧ t.env = s.env :=
  ⟨h .fault (by simp [WaitChanges]), h .wait (by simp [WaitChanges]), h .env (by simp [WaitChanges])⟩

/-- A load changes memory only, also where it is refused (R42). -/
theorem changesOnly_hostLoad (start : Word) (bytes : List Byte) (s : State) :
    ChangesOnly (∃ a, · = .byte a) s (hostLoad start bytes s).2 := by
  obtain ⟨hfits, hout⟩ := loadWritesAllOrNothing start bytes s
  rcases Nat.lt_or_ge 4096 (start.toNat + bytes.length) with h | h
  · rw [hout h]
    exact ChangesOnly.refl _ s
  · obtain ⟨-, -, hframe⟩ := hfits h
    exact hframe.mono fun _ ⟨_, _, hp⟩ => ⟨_, hp⟩

/-- A transaction that supplies no press leaves the wait pending, and a continuation that held no press from the sample before
it holds none from the sample after it (R101). -/
theorem perform_of_noPress {x : RegIndex} {tr : Transaction} (hfault : s.fault = none) (hwait : s.wait = some x)
    (hquiet : NoPressIn s.kprev [tr]) :
    ∃ t, perform tr s = .next t ∧ ChangesOnly WaitChanges s t ∧
      ∀ more, NoPressIn s.kprev (tr :: more) → NoPressIn t.kprev more := by
  cases tr with
  | step keys rnd =>
    obtain ⟨t, hstep, hkprev, hframe⟩ :=
      (keyWaitPollTakesTheLowestNewPress x s keys rnd hfault hwait).1 hquiet.1
    exact ⟨t, hstep, hframe.mono (by simp +contextual [WaitChanges]), fun _ h => hkprev ▸ h.2⟩
  | tick => exact ⟨tick s, rfl, (changesOnly_tick s).mono (by simp +contextual [WaitChanges]), fun _ h => h⟩
  | load start bytes =>
    have hframe := changesOnly_hostLoad start bytes s
    have hkprev : (hostLoad start bytes s).2.kprev = s.kprev := hframe .kprev (by simp)
    exact ⟨_, rfl, hframe.mono fun _ => .inr, fun _ h => hkprev ▸ h⟩
  | reset => exact hquiet.elim

/-- A sequence of transactions that supplies no press leaves the wait pending, and what followed it without a press still
does. -/
theorem performAll_of_noPress {x : RegIndex} {ts : List Transaction} (hfault : s.fault = none) (hwait : s.wait = some x)
    (hquiet : NoPressIn s.kprev ts) :
    ∃ t, performAll ts s = .next t ∧ ChangesOnly WaitChanges s t ∧
      ∀ more, NoPressIn s.kprev (ts ++ more) → NoPressIn t.kprev more := by
  induction ts generalizing s with
  | nil => exact ⟨s, rfl, ChangesOnly.refl _ s, fun _ h => h⟩
  | cons tr ts ih =>
    obtain ⟨t, hfirst, hframe, hnext⟩ := perform_of_noPress hfault hwait (NoPressIn.of_append (ts := [tr]) hquiet)
    obtain ⟨hfault', hwait', -⟩ := kept_of_waitChanges hframe
    obtain ⟨u, hall, hframes, hlater⟩ := ih (hfault'.trans hfault) (hwait'.trans hwait) (hnext ts hquiet)
    exact ⟨u, (performAll_cons_of_next hfirst ts).trans hall, hframe.trans hframes, fun more h => hlater more (hnext _ h)⟩

/-- Settles O43: the wait stays pending, and PC and the registers are outside `WaitChanges` too. -/
theorem keyWaitLastsWithoutAPress : Obligations.KeyWaitLastsWithoutAPress := by
  intro ts s x hfault hwait hquiet
  obtain ⟨t, hall, hframe, -⟩ := performAll_of_noPress hfault hwait hquiet
  obtain ⟨hfault', hwait', -⟩ := kept_of_waitChanges hframe
  exact ⟨t, hall, hfault'.trans hfault, hwait'.trans hwait, hframe .pc (by simp [WaitChanges]),
    fun r => hframe (.reg r) (by simp [WaitChanges])⟩

/-- A run performs the transactions at the front of the queue, whatever is queued behind them (R7). -/
theorem run_of_env_append {ts rest : List Transaction} (henv : s.env = ts ++ rest) :
    Host.Core.run core ts.length s = performAll ts (s.setEnv rest) := by
  induction ts generalizing s with
  | nil => exact congrArg (fun env => Host.Outcome.next (s.setEnv env)) henv
  | cons tr ts ih =>
    obtain ⟨u, hu⟩ := perform_next (s.setEnv (ts ++ rest)) tr
    have hfirst : perform tr (s.setEnv rest) = .next (u.setEnv rest) :=
      (perform_commutesWith_setEnv rest tr).next_change (s := s.setEnv (ts ++ rest)) hu
    have hrun : Host.Core.run core (ts.length + 1) s = performAll ts (u.setEnv rest) :=
      (run_succ_of_step ((step_of_env_cons henv).trans hu) _).trans (ih (perform_env hu))
    exact hrun.trans (performAll_cons_of_next hfirst ts).symm

theorem changesOnly_setEnv (env : List Transaction) (s : State) : ChangesOnly (· = .env) s (s.setEnv env) := by
  intro p hp
  cases p with
  | env => exact absurd rfl hp
  | _ => rfl

theorem NoPressEver.append_later {before : Word} {queue : List Transaction} {later : Nat → Transaction}
    (h : NoPressEver before queue later) (n : Nat) :
    NoPressEver before (queue ++ (List.range n).map later) fun j => later (n + j) := fun k => by
  have hfirst := h (n + k)
  rwa [List.range_add, List.map_append, List.map_map, ← List.append_assoc] at hfirst

/-- Settles O57: the first `m` transactions supply no press, and what is left of the queue and the schedule supplies none
after them. -/
theorem waitingNeverEnds : Obligations.WaitingNeverEnds := by
  intro later s hfault ⟨hwaiting, hquiet⟩ n m hm
  obtain ⟨x, hwait⟩ := Option.ne_none_iff_exists'.mp hwaiting
  have hnever := hquiet.append_later n
  have hlength : m ≤ (s.env ++ (List.range n).map later).length := by simpa using hm
  generalize s.env ++ (List.range n).map later = queue at hnever hlength ⊢
  obtain ⟨ts, rest, rfl, rfl⟩ : ∃ ts rest, queue = ts ++ rest ∧ ts.length = m :=
    ⟨queue.take m, queue.drop m, (List.take_append_drop m queue).symm, List.length_take_of_le hlength⟩
  have hfront : NoPressIn s.kprev ts := NoPressIn.of_append (NoPressIn.of_append (hnever 0))
  obtain ⟨t, hall, hframe, hlater⟩ := performAll_of_noPress (s := s.setEnv rest) hfault hwait hfront
  obtain ⟨hfault', hwait', henv⟩ : t.fault = s.fault ∧ t.wait = s.wait ∧ t.env = rest := kept_of_waitChanges hframe
  refine ⟨t, (run_of_env_append (s := s.setEnv (ts ++ rest)) rfl).trans hall,
    hfault'.trans hfault, hwait', ?_, ⟨hwait' ▸ hwaiting, fun k => ?_⟩, ?_⟩
  · rw [henv, List.drop_left]
  · rw [henv]
    exact hlater _ (List.append_assoc .. ▸ hnever k)
  · exact ((changesOnly_setEnv rest s).mono (by simp)).trans (hframe.mono (by simp +contextual [WaitChanges, or_imp]))

end Sys2Proof.Machine
end

section
/-! SUPPORT. The timer countdown over any number of ticks, the fault each instruction can take, and a latched fault through
every transaction but a reset (R102, R105, R106, R107, R112, R113, R125). -/

namespace Sys2Proof.Machine

variable {s : State}

/-! The countdown. -/

theorem tick_dt_toNat (s : State) : (tick s).dt.toNat = s.dt.toNat - 1 := countDown_toNat s.dt

theorem tick_st_toNat (s : State) : (tick s).st.toNat = s.st.toNat - 1 := countDown_toNat s.st

/-- Settles O39: the difference on the naturals is 0 where a timer is 0. -/
theorem tickCountsBothTimersDown : Obligations.TickCountsBothTimersDown := by
  intro s
  have hdt := tick_dt_toNat s
  have hst := tick_st_toNat s
  exact ⟨tick s, rfl, fun _ => hdt, fun _ => by omega, fun _ => hst, fun _ => by omega, changesOnly_tick s⟩

/-- Settles O40, by induction on the number of ticks. -/
theorem ticksNeverPassZero : Obligations.TicksNeverPassZero := by
  intro n s
  induction n generalizing s with
  | zero => exact ⟨s, rfl, rfl, rfl, ChangesOnly.refl _ s⟩
  | succ n ih =>
    obtain ⟨t, hrest, hdt, hst, hframe⟩ := ih (tick s)
    rw [tick_dt_toNat, Nat.sub_sub, Nat.add_comm] at hdt
    rw [tick_st_toNat, Nat.sub_sub, Nat.add_comm] at hst
    exact ⟨t, (performAll_cons_of_next rfl _).trans hrest, hdt, hst, (changesOnly_tick s).trans hframe⟩

/-! Faults. -/

/-- Settles O47: the cases are those of `Raises`, and the address is the larger of I and 0x1000. -/
theorem eachInstructionHasItsOwnFault : Obligations.EachInstructionHasItsOwnFault := by
  intro i s t f hnone h hf
  have hchanged : t.fault ≠ s.fault := by rw [hf, hnone]; exact Option.some_ne_none f
  obtain ⟨kind, hraises, rfl⟩ := raises_of_fault_ne h hchanged
  obtain rfl : ⟨kind, s.pc - 2⟩ = f := Option.some.inj ((s.raise_fault kind).symm.trans hf)
  have hout : max s.i.toNat memSize ≥ 0x1000 := le_max_right _ _
  cases hraises with
  | call nnn => exact .inl ⟨rfl, nnn, rfl⟩
  | ret => exact .inr (.inl ⟨rfl, rfl⟩)
  | drw x y n => exact .inr (.inr ⟨_, rfl, hout, .inl ⟨x, y, n, rfl⟩⟩)
  | ldB x => exact .inr (.inr ⟨_, rfl, hout, .inr ⟨x, .inl rfl⟩⟩)
  | ldStore x => exact .inr (.inr ⟨_, rfl, hout, .inr ⟨x, .inr (.inl rfl)⟩⟩)
  | ldLoad x => exact .inr (.inr ⟨_, rfl, hout, .inr ⟨x, .inr (.inr rfl)⟩⟩)

/-- A step over a latched fault is the identity (R105). -/
theorem coreStep_of_fault {f : FaultRecord} (h : s.fault = some f) (keys : Word) (rnd : Byte) :
    coreStep keys rnd s = .next s := by
  rw [coreStep, h]

/-- What may change over a latched fault until a reset: the timers, by ticks, and memory, by loads (R105, R107). -/
def LatchedChanges (p : Part) : Prop := p = .dt ∨ p = .st ∨ ∃ a, p = .byte a

/-- Each agent's transaction but the reset leaves a latched fault, and all but the timers and memory, as it was (R105). -/
theorem perform_of_fault {f : FaultRecord} {tr : Transaction} (h : s.fault = some f) (htr : tr ≠ .reset) :
    ∃ t, perform tr s = .next t ∧ ChangesOnly LatchedChanges s t := by
  cases tr with
  | step keys rnd => exact ⟨s, coreStep_of_fault h keys rnd, ChangesOnly.refl _ s⟩
  | tick => exact ⟨tick s, rfl, (changesOnly_tick s).mono (by simp +contextual [LatchedChanges])⟩
  | load start bytes => exact ⟨_, rfl, (changesOnly_hostLoad start bytes s).mono fun _ hp => .inr (.inr hp)⟩
  | reset => exact absurd rfl htr

/-- A sequence of such transactions too: FAULT is outside `LatchedChanges`, so the fault is still latched before each. -/
theorem performAll_of_fault {f : FaultRecord} {ts : List Transaction} (h : s.fault = some f) (hts : .reset ∉ ts) :
    ∃ t, performAll ts s = .next t ∧ ChangesOnly LatchedChanges s t := by
  induction ts generalizing s with
  | nil => exact ⟨s, rfl, ChangesOnly.refl _ s⟩
  | cons tr ts ih =>
    obtain ⟨htr, hrest⟩ := not_or.mp (mt List.mem_cons.mpr hts)
    obtain ⟨t, hfirst, hframe⟩ := perform_of_fault h (Ne.symm htr)
    have hkept : t.fault = s.fault := hframe .fault (by simp [LatchedChanges])
    obtain ⟨u, hall, hframes⟩ := ih (hkept.trans h) hrest
    exact ⟨u, (performAll_cons_of_next hfirst ts).trans hall, hframe.trans hframes⟩

/-- Settles O48. -/
theorem latchedFaultIsTerminal : Obligations.LatchedFaultIsTerminal := fun _ _ h =>
  ⟨coreStep_of_fault h, fun _ hts => performAll_of_fault h hts⟩

end Sys2Proof.Machine
end
